-- ==== Sys2Proof/Word.lean ====
section
/-! DEFINITION. The machine's unit of storage, the trit, and the index of a general register. -/

namespace Sys2Proof

/-- A balanced-ternary digit (00_scope.md R9): an abstract three-valued datum with no binary coding (R6, D2). -/
inductive Trit where
  | neg
  | zero
  | pos
  deriving DecidableEq, Repr

/-- The digit's value, -1, 0 or +1 (00_scope.md R9). -/
def Trit.toInt : Trit → Int
  | .neg => -1
  | .zero => 0
  | .pos => 1

/-- The index of a general register, 0 to 26 (10_state.md R21). -/
abbrev Reg := Fin 27

end Sys2Proof
end

