-- ==== Sys2Proof/Machine/Codec.lean ====
section
/-! DEFINITION. The balanced-ternary radix codec on trit strings and integers (40_codec.md): the digit rule, encode,
decode, the balanced residue and `clamp`, and the reduction of any integer to a register index. A trit string lists its
trits in increasing address order, least significant first (00_scope.md R9). -/

namespace Sys2Proof.Machine

/-- The largest value n balanced trits hold, (3^n - 1)/2 (00_scope.md R10). -/
def maxValue (n : Nat) : Int := (((3 ^ n - 1) / 2 : Nat) : Int)

/-- `bal_n(v)`: the residue of v modulo 3^n in -H(n)..H(n) (00_scope.md R10), computed as 40_codec.md R92 writes it. -/
def bal (n : Nat) (v : Int) : Int :=
  if v % ((3 ^ n : Nat) : Int) > maxValue n then v % ((3 ^ n : Nat) : Int) - ((3 ^ n : Nat) : Int)
  else v % ((3 ^ n : Nat) : Int)

/-- `clamp`: the 50-trit wraparound of register write-back (40_codec.md R92). -/
def clamp (v : Int) : Int := bal 50 v

/-- The trit that encode emits for v, `((v+1) fmod 3) - 1` (40_codec.md R88, R89; the floored remainder of C5). -/
def digit (v : Int) : Trit :=
  if (v + 1) % 3 = 0 then .neg else if (v + 1) % 3 = 1 then .zero else .pos

/-- The trits that `encode` emits for v in n cells, least significant first (40_codec.md R88). -/
def balancedTrits : Nat → Int → List Trit
  | 0, _ => []
  | n + 1, v => digit v :: balancedTrits n ((v - (digit v).toInt) / 3)

/-- The integer that `decode` reads from a trit string: trit i weighs 3^i (40_codec.md R86). -/
def tritsValue : List Trit → Int
  | [] => 0
  | t :: ts => t.toInt + 3 * tritsValue ts

/-- `ri(v) = v fmod 27`: any integer names a register (00_scope.md R12, 10_state.md R23). -/
def ri (v : Int) : Reg := ⟨(v % 27).toNat, by omega⟩

end Sys2Proof.Machine
end

