-- ==== Sys2Proof/Machine/Memory.lean ====
section
/-! DEFINITION. The trit memory as plain data: the list of (address, trit) pairs whose addresses rise strictly and none of
whose trits is 0, which is what an unlisted address reads as. -/

namespace Sys2Proof.Machine

/-- Memory: the cells that do not hold 0, by address. A cell is a TRIT (10_state.md R32, 00_scope.md R13; log entry 1). -/
abbrev Memory := List (Nat × Trit)

/-- What an address that is not listed reads as: 0, the power-on content of every cell (70_reset_and_hazards.md R165) and
what the codec reads for a missing cell (20_memory.md R43). -/
def Memory.unlisted : Trit := .zero

/-- The canonical form: addresses rise strictly, and no listed trit is the one an unlisted address reads as. -/
abbrev Memory.wf (m : Memory) : Prop :=
  m.Pairwise (fun c d => c.1 < d.1) ∧ ∀ c ∈ m, c.2 ≠ Memory.unlisted

/-- The trit at an address. -/
def Memory.read : Memory → Nat → Trit
  | [], _ => Memory.unlisted
  | (k, t) :: m, a => if a = k then t else Memory.read m a

/-- Storing a trit at an address; a 0 removes the entry, so that the form stays canonical. -/
def Memory.write : Memory → Nat → Trit → Memory
  | [], a, t => if t = Memory.unlisted then [] else [(a, t)]
  | (k, u) :: m, a, t =>
    if a < k then (if t = Memory.unlisted then (k, u) :: m else (a, t) :: (k, u) :: m)
    else if a = k then (if t = Memory.unlisted then m else (a, t) :: m)
    else (k, u) :: Memory.write m a t

/-- Storing 0 in every cell of lo..hi-1 (70_reset_and_hazards.md R167, the clearing loop). -/
def Memory.clear (m : Memory) (lo hi : Nat) : Memory :=
  m.filter (fun c => !(decide (lo ≤ c.1) && decide (c.1 < hi)))

end Sys2Proof.Machine
end

