-- ==== Sys2Proof/Config.lean ====
section
/-! DEFINITION. The parameters of one build (00_scope.md R7) and the one choice that no plain datum can hold. The values
of the reference configuration REF stand in Machine/RefBuild.lean. -/

namespace Sys2Proof

/-- `DIV_ROUND`, how an inexact quotient is rounded (00_scope.md R7, 42_arithmetic.md R114, D7). -/
inductive DivRound where
  /-- REF: truncation toward zero. -/
  | towardZero
  /-- Flooring, which R114 names as a rounding a build may have. -/
  | floored
  /-- Any admissible rounding: which of the two neighbouring integers results is `Config.divRoundsUp`. -/
  | free
  deriving DecidableEq, Repr

/-- For a build whose `DIV_ROUND` is `free`: does the inexact quotient of the two operands become the upper of the two
neighbouring integers? DESIGN CHOICE (log entry 3): a free value, no proof can see it. -/
opaque Config.divRoundsUp : Int → Int → Bool

/-- What `MOUSE_SELECT` can name (00_scope.md R7, 45_io_instructions.md R139). -/
inductive MousePort where
  | x
  | y
  | click
  deriving DecidableEq, Repr

/-- The parameters of one build, 00_scope.md R7: constants of the machine that no transition changes. -/
structure Build where
  /-- `MEM_SIZE`: trit cells, addresses 0..MEM_SIZE-1. -/
  memSize : Nat
  /-- `BOOT_ADDR`: `pc` after launch and base of the program image. -/
  bootAddr : Nat
  /-- `SP_INDEX`: the register CALL uses as stack pointer. -/
  spIndex : Reg
  /-- `ST_INDEX`: the register reserved by convention as status; no rule uses it (10_state.md R25). -/
  stIndex : Reg
  /-- `CALL_PUSH_LEN`: trits CALL writes for the return address. -/
  callPushLen : Nat
  /-- `FB_BASE`: address of pixel (0,0). -/
  fbBase : Nat
  /-- `FB_WIDTH`: pixels per row. -/
  fbWidth : Nat
  /-- `FB_HEIGHT`: rows. -/
  fbHeight : Nat
  /-- `CLEAR_LO`, `CLEAR_HI`: `launch` zeroes the cells of [CLEAR_LO, CLEAR_HI). -/
  clearLo : Nat
  clearHi : Nat
  /-- `DIV_ROUND`. -/
  divRound : DivRound
  /-- `MOUSE_SELECT`, as the list of the operand-2 values that name a port (the first entry for a value counts); every
  other value names none. DEDUCED (log entry 4): every total function on -364..364 is such a list. -/
  mouseSelect : List (Int × MousePort)
  /-- `COMMENT_MARKER`, of the assembler only (30_encoding.md R72); how "one token-free string" is read is log entry 20. -/
  commentMarker : List Char
  deriving DecidableEq, Repr

/-- The first address after the framebuffer region (10_state.md R34). -/
def Build.fbEnd (b : Build) : Nat := b.fbBase + 9 * b.fbWidth * b.fbHeight

/-- The first address after the program image of n records: one 15-trit slot a record from BOOT_ADDR upward (20_memory.md
section 6, 70_reset_and_hazards.md R170). -/
def Build.imageEnd (b : Build) (n : Nat) : Nat := b.bootAddr + 15 * n

/-- What R7 and R8 ask of the program image, of n records: the framebuffer range does not meet it (R8) and the cleared
window covers it (R7, D20). An empty image occupies no cell and meets nothing. -/
abbrev Build.HoldsImage (b : Build) (n : Nat) : Prop :=
  n = 0 ∨ ((b.imageEnd n ≤ b.fbBase ∨ b.fbEnd ≤ b.bootAddr) ∧ b.clearLo ≤ b.bootAddr ∧ b.imageEnd n ≤ b.clearHi)

/-- The constraints of 00_scope.md R7 and R8 on the parameters: MEM_SIZE at least a slot; BOOT_ADDR a multiple of 15;
ST_INDEX not SP_INDEX; CALL_PUSH_LEN 1..15; a framebuffer of at least one pixel that fits in memory; a cleared window that
covers the program region and the framebuffer and is not the whole of memory (D20). No hardware checks them, and the
model's meanings do not need them; a statement that does names this predicate.
Two readings of the spec's words are the model's (log entry 20). DEDUCED: the program region is at least the first slot, so
a valid build holds an image of one record. DESIGN CHOICE: COMMENT_MARKER is "one token-free string", a term that the spec
does not define, and nothing more is asked of it than that it is not empty; a marker with whitespace or one that is a
mnemonic is valid here. -/
abbrev Build.Valid (b : Build) : Prop :=
  15 ≤ b.memSize ∧ b.bootAddr % 15 = 0 ∧ b.spIndex ≠ b.stIndex ∧ 1 ≤ b.callPushLen ∧ b.callPushLen ≤ 15 ∧
    1 ≤ b.fbWidth ∧ 1 ≤ b.fbHeight ∧ b.fbEnd ≤ b.memSize ∧ b.clearLo ≤ b.bootAddr ∧ b.clearLo ≤ b.fbBase ∧
    b.fbEnd ≤ b.clearHi ∧ b.HoldsImage 1 ∧ ¬(b.clearLo = 0 ∧ b.memSize ≤ b.clearHi) ∧ b.commentMarker ≠ []

end Sys2Proof
end

