-- ==== Sys2Proof/Machine/RefBuild.lean ====
section
/-! DEFINITION. The reference configuration REF of 00_scope.md R7, one definition a parameter. DESIGN CHOICE (log entry
2): the spec gives these values only so that its vectors are concrete; a statement about every state ranges over every
build. -/

namespace Sys2Proof.Machine

/-- REF `MEM_SIZE`, 3^10 (D3). -/
def refMemSize : Nat := 59049
/-- REF `BOOT_ADDR` (D4). -/
def refBootAddr : Nat := 0
/-- REF `SP_INDEX` (D12). -/
def refSpIndex : Reg := 26
/-- REF `ST_INDEX` (D13). -/
def refStIndex : Reg := 25
/-- REF `CALL_PUSH_LEN` (D12). -/
def refCallPushLen : Nat := 15
/-- REF `FB_BASE` (D14). -/
def refFbBase : Nat := 6561
/-- REF `FB_WIDTH` (D14). -/
def refFbWidth : Nat := 27
/-- REF `FB_HEIGHT` (D14). -/
def refFbHeight : Nat := 27
/-- REF `CLEAR_LO` (D20). -/
def refClearLo : Nat := 0
/-- REF `CLEAR_HI` (D20). -/
def refClearHi : Nat := 13122
/-- REF `DIV_ROUND` (D7). -/
def refDivRound : DivRound := .towardZero
/-- REF `MOUSE_SELECT` (D16). -/
def refMouseSelect : List (Int × MousePort) := [(0, .x), (1, .y), (2, .click)]
/-- REF `COMMENT_MARKER` (D21). -/
def refCommentMarker : List Char := [';']

/-- REF, the build that `State.reset` is of. -/
def refBuild : Build :=
  { memSize := refMemSize, bootAddr := refBootAddr, spIndex := refSpIndex, stIndex := refStIndex,
    callPushLen := refCallPushLen, fbBase := refFbBase, fbWidth := refFbWidth, fbHeight := refFbHeight,
    clearLo := refClearLo, clearHi := refClearHi, divRound := refDivRound, mouseSelect := refMouseSelect,
    commentMarker := refCommentMarker }

end Sys2Proof.Machine
end

