-- ==== Sys2Proof/Machine/State.lean ====
section
/-! DEFINITION. The state of the machine (10_state.md), the moves of the agents around the core, the reasons a step could
stop, and the state after power-on. -/

namespace Sys2Proof.Machine

/-- One record of a program image: opcode number, arg1, arg2 (70_reset_and_hazards.md R170). -/
structure ImageRecord where
  opcode : Int
  arg1 : Int
  arg2 : Int
  deriving DecidableEq, Repr

/-- One port write of the input bridge (60_exceptions.md R157, 10_state.md R33). -/
inductive PortWrite where
  | mouseX (v : Int)
  | mouseY (v : Int)
  | click (v : Int)
  | key (code : Int) (down : Bool)
  deriving DecidableEq, Repr

/-- A move of an agent around the core, one atomic transition each (60_exceptions.md R160). -/
inductive HostMove where
  /-- The driver calls `step()`. -/
  | cpuStep
  /-- The input bridge writes one port. -/
  | bridge (w : PortWrite)
  /-- The loader is asked to launch: `some image`, or `none` for a path that names no image
  (70_reset_and_hazards.md R167, R168). -/
  | launch (image : Option (List ImageRecord))
  /-- The renderer reads the framebuffer region (60_exceptions.md R158). -/
  | render
  deriving DecidableEq, Repr

/-- Everything the machine holds. `mem`, `x`, `pc`, `halted` are 10_state.md R20's aggregate and the four port fields
R33's; `build` and `schedule` are the model's own (log entries 2 and 7). -/
structure State where
  /-- The general registers (R21), each in -H(50)..H(50) (R22). -/
  x : Vector Int 27
  /-- The program counter, an unbounded integer (R26). -/
  pc : Int
  /-- Running (false) or Halted (true) (R29). -/
  halted : Bool
  /-- The trit memory (R32). -/
  mem : Memory
  /-- `port.mx` (R33). -/
  portMx : Int
  /-- `port.my` (R33). -/
  portMy : Int
  /-- `port.click` (R33). -/
  portClick : Int
  /-- `port.key` (R33): the keycodes that are down, strictly rising (log entry 8). -/
  heldKeys : List Int
  /-- The parameters of the build, which no transition changes (00_scope.md R7; log entry 2). -/
  build : Build
  /-- The moves the agents around the core make next; when it is empty the driver calls `step()` (log entry 7). -/
  schedule : List HostMove
  deriving DecidableEq, Repr

/-- The faults of the machine: none (60_exceptions.md R145, "it has no fault outcome"). -/
inductive Fault where
  deriving DecidableEq, Repr

/-- The refusals of the model. -/
inductive Refusal where
  /-- Raised by an arm of `exec` whose instruction has no meaning yet; safe, since the model stops where the machine goes
  on. No arm of this model raises it. -/
  | notModelled (mnemonic : String)
  deriving DecidableEq, Repr

/-- The state of a build at power-on (70_reset_and_hazards.md R165, 10_state.md R36): every cell and register 0, `pc` at
the build's BOOT_ADDR, Running. The ports are "unspecified: owned by the bridge" there; 0 and no key down are DESIGN CHOICE
(log entry 6), as is the empty schedule (log entry 7). -/
def State.powerOn (b : Build) : State :=
  { x := Vector.replicate 27 0, pc := (b.bootAddr : Int), halted := false, mem := [],
    portMx := 0, portMy := 0, portClick := 0, heldKeys := [], build := b, schedule := [] }

/-- The state at power-on of the one build that the host's form lets a reset state be of: REF, which is DESIGN CHOICE (log
entry 2). `State.powerOn` takes the build as an argument. -/
def State.reset : State := State.powerOn refBuild

end Sys2Proof.Machine
end

