-- ==== Sys2Proof/Machine/Ops.lean ====
section
/-! DEFINITION. The named operations over registers, memory, `pc` and `halted`. The machine takes no exception and
returns from none (60_exceptions.md R145, R150, R151), so there is no such operation. -/

namespace Sys2Proof.Machine

/-- `x[i]` (00_scope.md R12). No register is hard-wired (10_state.md R23). -/
def State.readReg (s : State) (r : Reg) : Int := s.x[r.val]

/-- `x[i] <- v` (00_scope.md R12). -/
def State.writeReg (s : State) (r : Reg) (v : Int) : State := { s with x := s.x.set r.val v r.isLt }

/-- Is the address one of 0..MEM_SIZE-1 (10_state.md R32)? -/
def State.inMemory (s : State) (a : Int) : Bool := decide (0 ≤ a) && decide (a < (s.build.memSize : Int))

/-- `mem[a]` for any integer a: 0 outside memory (00_scope.md R13, 20_memory.md R43). -/
def State.readCell (s : State) (a : Int) : Trit :=
  if s.inMemory a then s.mem.read a.toNat else .zero

/-- `mem[a] <- t` for any integer a: dropped outside memory (00_scope.md R13, 20_memory.md R44). -/
def State.writeCell (s : State) (a : Int) (t : Trit) : State :=
  if s.inMemory a then { s with mem := s.mem.write a.toNat t } else s

/-- The trits of n consecutive cells from a, in address order. -/
def State.readTrits (s : State) (a : Int) (n : Nat) : List Trit :=
  (List.range n).map (fun k : Nat => s.readCell (a + (k : Int)))

/-- Storing trits in consecutive cells from a, in address order. -/
def State.writeTrits (s : State) (a : Int) : List Trit → State
  | [] => s
  | t :: ts => (s.writeCell a t).writeTrits (a + 1) ts

/-- `MemRead(a, n)`, the codec's decode (40_codec.md R86). -/
def State.memRead (s : State) (a : Int) (n : Nat) : Int := tritsValue (s.readTrits a n)

/-- `MemWrite(a, n, v)`, the codec's encode (40_codec.md R88). -/
def State.memWrite (s : State) (a : Int) (n : Nat) (v : Int) : State := s.writeTrits a (balancedTrits n v)

/-- The default advance, `pc <- A + 15`; `pc` is never clamped, wrapped or checked (41_step_cycle.md R104, 10_state.md
R28). -/
def State.advance (s : State) : State := { s with pc := s.pc + 15 }

/-- `pc <- t` of a taken control transfer (44_control_transfer.md R125). -/
def State.jump (s : State) (t : Int) : State := { s with pc := t }

/-- `halted <- b` (00_scope.md R16). -/
def State.setHalted (s : State) (b : Bool) : State := { s with halted := b }

/-- `port.key(k)` (00_scope.md R16, 10_state.md R33). -/
def State.keyHeld (s : State) (k : Int) : Bool := s.heldKeys.contains k

/-- The integers lo, lo+1, ..., hi-1 (none when hi is at most lo). -/
def intRange (lo hi : Int) : List Int := (List.range (hi - lo).toNat).map (fun k : Nat => lo + (k : Int))

/-- The first cell of pixel (px, py): row-major, nine cells a pixel (20_memory.md R50). -/
def pixelBase (b : Build) (px py : Int) : Int := (b.fbBase : Int) + 9 * (py * (b.fbWidth : Int) + px)

/-- `WritePixel`: the channels R, G, B in three trits each (45_io_instructions.md R137). -/
def State.writePixel (s : State) (px py r g b : Int) : State :=
  ((s.memWrite (pixelBase s.build px py) 3 r).memWrite (pixelBase s.build px py + 3) 3 g).memWrite
    (pixelBase s.build px py + 6) 3 b

/-- The pixels of a rectangle that the framebuffer holds: columns max(X,0) .. min(X+W, FB_WIDTH)-1 and rows max(Y,0) ..
min(Y+H, FB_HEIGHT)-1, with exact sums (45_io_instructions.md R136, R138). -/
def clippedPixels (b : Build) (px py w h : Int) : List (Int × Int) :=
  (intRange (max py 0) (min (py + h) (b.fbHeight : Int))).flatMap (fun q =>
    (intRange (max px 0) (min (px + w) (b.fbWidth : Int))).map (fun p => (p, q)))

/-- The framebuffer blitter: every pixel of the clipped rectangle gets the three channel values
(45_io_instructions.md R136). -/
def State.fillRect (s : State) (r g b px py w h : Int) : State :=
  (clippedPixels s.build px py w h).foldl (fun t p => t.writePixel p.1 p.2 r g b) s

/-- The three channel values of a pixel as the renderer reads them (20_memory.md R50, 60_exceptions.md R158). -/
def State.pixel (s : State) (px py : Int) : Int × Int × Int :=
  (s.memRead (pixelBase s.build px py) 3, s.memRead (pixelBase s.build px py + 3) 3,
    s.memRead (pixelBase s.build px py + 6) 3)

/-- CALL's push: the stack pointer goes down by 15 through `clamp`, and the value is written at the new pointer
(44_control_transfer.md R130, D12; log entry 12). -/
def State.push (s : State) (v : Int) : State :=
  (s.writeReg s.build.spIndex (clamp (s.readReg s.build.spIndex - 15))).memWrite
    (clamp (s.readReg s.build.spIndex - 15)) s.build.callPushLen v

end Sys2Proof.Machine
end

