-- ==== Sys2Proof/Machine/Bridge.lean ====
section
/-! DEFINITION. The input bridge's writes to the ports (60_exceptions.md R157, 10_state.md R33). -/

namespace Sys2Proof.Machine

/-- Putting a keycode into a strictly rising list. -/
def insertKey (code : Int) : List Int → List Int
  | [] => [code]
  | k :: ks => if code < k then code :: k :: ks else if code = k then k :: ks else k :: insertKey code ks

/-- Taking a keycode out of a list. -/
def removeKey (code : Int) (ks : List Int) : List Int := ks.filter (fun k => k != code)

/-- One port gets a value of its type; `mem`, `x`, `pc`, `halted` are not touched (60_exceptions.md R157). -/
def State.bridgeWrite (s : State) (w : PortWrite) : State :=
  match w with
  | .mouseX v => { s with portMx := v }
  | .mouseY v => { s with portMy := v }
  | .click v => { s with portClick := v }
  | .key code true => { s with heldKeys := insertKey code s.heldKeys }
  | .key code false => { s with heldKeys := removeKey code s.heldKeys }

end Sys2Proof.Machine
end

