-- ==== Sys2Proof/Machine/Flags.lean ====
section
/-! DEFINITION. The machine has no flags (10_state.md R30). What takes their place is computed here: the sign that TRI
writes to a register, the conditions BRN and BRP test, and the quotient of DIV. -/

namespace Sys2Proof.Machine

/-- `sign(v)`: -1, 0 or +1 (00_scope.md R11). -/
def sign (v : Int) : Int := if v < 0 then -1 else if v = 0 then 0 else 1

/-- BRN's condition (44_control_transfer.md R128). -/
def isNegative (v : Int) : Bool := decide (v < 0)

/-- BRP's condition (44_control_transfer.md R129). -/
def isPositive (v : Int) : Bool := decide (0 < v)

/-- `DivQ(n, d)` for d not 0 (42_arithmetic.md R114): the exact quotient where d divides n, else one of the two integers
next to n/d, as `DIV_ROUND` says. `n.fdiv d` is the lower of the two. -/
def divQ (mode : DivRound) (n d : Int) : Int :=
  if n % d = 0 then n / d
  else
    match mode with
    | .towardZero => sign n * sign d * ((n.natAbs / d.natAbs : Nat) : Int)
    | .floored => n.fdiv d
    | .free => if Config.divRoundsUp n d then n.fdiv d + 1 else n.fdiv d

/-- DIV's quotient: a zero divisor gives 0 (42_arithmetic.md R114). -/
def quotient (mode : DivRound) (n d : Int) : Int := if d = 0 then 0 else divQ mode n d

end Sys2Proof.Machine
end

