-- ==== Sys2Proof/Machine/Operands.lean ====
section
/-! DEFINITION. The operand forms (30_encoding.md R63 to R65): operand-1 is always a register, operand-2 a register, an
immediate, an absolute address, a port selector or a keycode; an ignored operand has no form. -/

namespace Sys2Proof.Machine

/-- Operand-1: the register `a1 = op1 fmod 27` (30_encoding.md R63). -/
def regOperand1 (op1 : Int) : Reg := ri op1

/-- Operand-2 of kind `reg`: the register `op2 fmod 27` (30_encoding.md R64). -/
def regOperand2 (op2 : Int) : Reg := ri op2

/-- Operand-2 of kind `imm`: the signed field value, neither scaled nor shifted (30_encoding.md R64). -/
def immOperand (op2 : Int) : Int := op2

/-- Operand-2 of kind `addr`: an absolute trit address, not scaled (30_encoding.md R64, 44_control_transfer.md R125). -/
def addrOperand (op2 : Int) : Int := op2

/-- Operand-2 of kind `sel` for POLL_MOUSE: the port `MOUSE_SELECT` names, if any (45_io_instructions.md R139). -/
def mouseOperand (b : Build) (op2 : Int) : Option MousePort := b.mouseSelect.lookup op2

/-- Operand-2 of kind `sel` for POLL_KEY: the keycode, as an integer (45_io_instructions.md R140). -/
def keyOperand (op2 : Int) : Int := op2

/-- The value a POLL_MOUSE reads: the selected port, or 0 (45_io_instructions.md R139, D16). The model's bridge may write any
integer, so the read applies `clamp`, as R139 and D17 ask of such a model; a port in its range is copied as it stands. -/
def mouseValue (s : State) (sel : Option MousePort) : Int :=
  match sel with
  | some .x => clamp s.portMx
  | some .y => clamp s.portMy
  | some .click => clamp s.portClick
  | none => 0

/-- The value a POLL_KEY reads: 13 for a key that is down, 0 for any other (45_io_instructions.md R140). -/
def keyValue (s : State) (code : Int) : Int := if s.keyHeld code then 13 else 0

/-- The shape of the arithmetic family: `x[a1]` gets the given function of the old `x[a1]` and `x[s]`, and `pc` advances
(42_arithmetic.md R110). -/
def binaryOp (f : Int → Int → Int) (op1 op2 : Int) (s : State) : State :=
  (s.writeReg (regOperand1 op1) (f (s.readReg (regOperand1 op1)) (s.readReg (regOperand2 op2)))).advance

/-- The shape of an instruction that puts a value in `x[a1]` and advances. -/
def loadReg (op1 : Int) (v : Int) (s : State) : State := (s.writeReg (regOperand1 op1) v).advance

/-- The shape of a conditional branch: to the target when the condition holds, else the default advance
(44_control_transfer.md R128, R129). -/
def branchIf (c : Bool) (op2 : Int) (s : State) : State := if c then s.jump (addrOperand op2) else s.advance

end Sys2Proof.Machine
end

