-- ==== Sys2Proof/Machine/Arithmetic.lean ====
section
/-! DEFINITION. ADD, SUB, MUL, DIV, NEG, TRI (42_arithmetic.md). -/

namespace Sys2Proof.Machine

/-- ADD (42_arithmetic.md R111). -/
def execAdd (op1 op2 : Int) (s : State) : Host.Outcome State Fault Refusal :=
  .next (binaryOp (fun a b => clamp (a + b)) op1 op2 s)

/-- SUB (42_arithmetic.md R112). -/
def execSub (op1 op2 : Int) (s : State) : Host.Outcome State Fault Refusal :=
  .next (binaryOp (fun a b => clamp (a - b)) op1 op2 s)

/-- MUL (42_arithmetic.md R113). -/
def execMul (op1 op2 : Int) (s : State) : Host.Outcome State Fault Refusal :=
  .next (binaryOp (fun a b => clamp (a * b)) op1 op2 s)

/-- DIV (42_arithmetic.md R114). -/
def execDiv (op1 op2 : Int) (s : State) : Host.Outcome State Fault Refusal :=
  .next (binaryOp (fun n d => clamp (quotient s.build.divRound n d)) op1 op2 s)

/-- NEG (42_arithmetic.md R115); operand-2 is ignored. -/
def execNeg (op1 _op2 : Int) (s : State) : Host.Outcome State Fault Refusal :=
  .next (loadReg op1 (-(s.readReg (regOperand1 op1))) s)

/-- TRI (42_arithmetic.md R116): the difference is exact (D8). -/
def execTri (op1 op2 : Int) (s : State) : Host.Outcome State Fault Refusal :=
  .next (binaryOp (fun a b => sign (a - b)) op1 op2 s)

end Sys2Proof.Machine
end

