-- ==== Sys2Proof/Machine/ControlTransfer.lean ====
section
/-! DEFINITION. HALT, JMP, BRN, BRP, CALL (44_control_transfer.md) and the no-op of the unassigned opcode values
(41_step_cycle.md R105). -/

namespace Sys2Proof.Machine

/-- HALT (44_control_transfer.md R126): the default advance applies (D9, C7; log entry 13). -/
def execHalt (_op1 _op2 : Int) (s : State) : Host.Outcome State Fault Refusal :=
  .next (s.setHalted true).advance

/-- JMP (44_control_transfer.md R127). -/
def execJmp (_op1 op2 : Int) (s : State) : Host.Outcome State Fault Refusal :=
  .next (s.jump (addrOperand op2))

/-- BRN (44_control_transfer.md R128). -/
def execBrn (op1 op2 : Int) (s : State) : Host.Outcome State Fault Refusal :=
  .next (branchIf (isNegative (s.readReg (regOperand1 op1))) op2 s)

/-- BRP (44_control_transfer.md R129). -/
def execBrp (op1 op2 : Int) (s : State) : Host.Outcome State Fault Refusal :=
  .next (branchIf (isPositive (s.readReg (regOperand1 op1))) op2 s)

/-- CALL (44_control_transfer.md R130): the pushed value is A + 15. -/
def execCall (_op1 op2 : Int) (s : State) : Host.Outcome State Fault Refusal :=
  .next ((s.push (s.pc + 15)).jump (addrOperand op2))

/-- An opcode value that selects no instruction: only `pc` moves (41_step_cycle.md R105). -/
def execUnknownOpcode (_opcode _op1 _op2 : Int) (s : State) : Host.Outcome State Fault Refusal :=
  .next s.advance

end Sys2Proof.Machine
end

