-- ==== Sys2Proof/Machine/DataMovement.lean ====
section
/-! DEFINITION. SET and CPY (43_data_movement.md). -/

namespace Sys2Proof.Machine

/-- SET (43_data_movement.md R120). -/
def execSet (op1 op2 : Int) (s : State) : Host.Outcome State Fault Refusal :=
  .next (loadReg op1 (clamp (immOperand op2)) s)

/-- CPY (43_data_movement.md R121). -/
def execCpy (op1 op2 : Int) (s : State) : Host.Outcome State Fault Refusal :=
  .next (loadReg op1 (s.readReg (regOperand2 op2)) s)

end Sys2Proof.Machine
end

