-- ==== Sys2Proof/Machine/InputOutput.lean ====
section
/-! DEFINITION. RECT, POLL_MOUSE, POLL_KEY (45_io_instructions.md). -/

namespace Sys2Proof.Machine

/-- RECT (45_io_instructions.md R136): registers 0 to 6 are R, G, B, X, Y, W, H. -/
def execRect (_op1 _op2 : Int) (s : State) : Host.Outcome State Fault Refusal :=
  .next (s.fillRect (s.readReg 0) (s.readReg 1) (s.readReg 2) (s.readReg 3) (s.readReg 4) (s.readReg 5)
    (s.readReg 6)).advance

/-- POLL_MOUSE (45_io_instructions.md R139). -/
def execPollMouse (op1 op2 : Int) (s : State) : Host.Outcome State Fault Refusal :=
  .next (loadReg op1 (mouseValue s (mouseOperand s.build op2)) s)

/-- POLL_KEY (45_io_instructions.md R140). -/
def execPollKey (op1 op2 : Int) (s : State) : Host.Outcome State Fault Refusal :=
  .next (loadReg op1 (keyValue s (keyOperand op2)) s)

end Sys2Proof.Machine
end

