-- ==== Sys2Proof/Syntax.lean ====
section
/-! DEFINITION. The instructions: one constructor per row of spec/opcode_table.json, the row of the no-op that every
unassigned opcode value is among them. Each carries the raw signed values of its fields as 41_step_cycle.md R102 fetches
them (`op1` of 5 trits, `op2` of 6), so that no trit of an encoding is dropped; what an operand MEANS (a register index,
an immediate, an address, a selector, nothing) is Machine/Operands.lean's (30_encoding.md R63 to R65; log entry 11). -/

namespace Sys2Proof

inductive Instr where
  /-- HALT, opcode 0 (44_control_transfer.md R126); both operands ignored. -/
  | halt (op1 op2 : Int)
  /-- ADD d s, opcode 1 (42_arithmetic.md R111). -/
  | add (op1 op2 : Int)
  /-- SUB d s, opcode 2 (42_arithmetic.md R112). -/
  | sub (op1 op2 : Int)
  /-- MUL d s, opcode 3 (42_arithmetic.md R113). -/
  | mul (op1 op2 : Int)
  /-- DIV d s, opcode 4 (42_arithmetic.md R114). -/
  | div (op1 op2 : Int)
  /-- NEG d, opcode 6 (42_arithmetic.md R115); operand-2 ignored. -/
  | neg (op1 op2 : Int)
  /-- SET d imm, opcode 11 (43_data_movement.md R120). -/
  | set (op1 op2 : Int)
  /-- CPY d s, opcode 12 (43_data_movement.md R121). -/
  | cpy (op1 op2 : Int)
  /-- JMP 0 target, opcode 20 (44_control_transfer.md R127); operand-1 ignored. -/
  | jmp (op1 op2 : Int)
  /-- BRN r target, opcode 21 (44_control_transfer.md R128). -/
  | brn (op1 op2 : Int)
  /-- BRP r target, opcode 22 (44_control_transfer.md R129). -/
  | brp (op1 op2 : Int)
  /-- TRI d s, opcode 23 (42_arithmetic.md R116). -/
  | tri (op1 op2 : Int)
  /-- CALL 0 target, opcode 24 (44_control_transfer.md R130); operand-1 ignored. -/
  | call (op1 op2 : Int)
  /-- RECT, opcode 30 (45_io_instructions.md R136); both operands ignored. -/
  | rect (op1 op2 : Int)
  /-- POLL_MOUSE d sel, opcode 31 (45_io_instructions.md R139). -/
  | pollMouse (op1 op2 : Int)
  /-- POLL_KEY d key, opcode 32 (45_io_instructions.md R140). -/
  | pollKey (op1 op2 : Int)
  /-- The no-op of the 65 opcode values without a row (30_encoding.md R68, 41_step_cycle.md R105). -/
  | unknownOpcode (opcode op1 op2 : Int)
  deriving DecidableEq, Repr

end Sys2Proof
end

