-- ==== Sys2Proof/Machine/Dispatch.lean ====
section
/-! DEFINITION. One arm per instruction (41_step_cycle.md R100, R103). -/

namespace Sys2Proof.Machine

/-- The body of an instruction with its assignment of `pc` (41_step_cycle.md R100). -/
def exec (i : Instr) (s : State) : Host.Outcome State Fault Refusal :=
  match i with
  | .halt op1 op2 => Sys2Proof.Machine.execHalt op1 op2 s
  | .add op1 op2 => Sys2Proof.Machine.execAdd op1 op2 s
  | .sub op1 op2 => Sys2Proof.Machine.execSub op1 op2 s
  | .mul op1 op2 => Sys2Proof.Machine.execMul op1 op2 s
  | .div op1 op2 => Sys2Proof.Machine.execDiv op1 op2 s
  | .neg op1 op2 => Sys2Proof.Machine.execNeg op1 op2 s
  | .set op1 op2 => Sys2Proof.Machine.execSet op1 op2 s
  | .cpy op1 op2 => Sys2Proof.Machine.execCpy op1 op2 s
  | .jmp op1 op2 => Sys2Proof.Machine.execJmp op1 op2 s
  | .brn op1 op2 => Sys2Proof.Machine.execBrn op1 op2 s
  | .brp op1 op2 => Sys2Proof.Machine.execBrp op1 op2 s
  | .tri op1 op2 => Sys2Proof.Machine.execTri op1 op2 s
  | .call op1 op2 => Sys2Proof.Machine.execCall op1 op2 s
  | .rect op1 op2 => Sys2Proof.Machine.execRect op1 op2 s
  | .pollMouse op1 op2 => Sys2Proof.Machine.execPollMouse op1 op2 s
  | .pollKey op1 op2 => Sys2Proof.Machine.execPollKey op1 op2 s
  | .unknownOpcode opcode op1 op2 => Sys2Proof.Machine.execUnknownOpcode opcode op1 op2 s

end Sys2Proof.Machine
end

