-- ==== Sys2Proof/WellFormed.lean ====
section
/-! DEFINITION. Which instructions the fields of 30_encoding.md R61 can hold. -/

namespace Sys2Proof

/-- Operand-1 is a 5-trit field: -121..121 (30_encoding.md R61). -/
abbrev fitsOp1 (v : Int) : Bool := decide (-121 ≤ v ∧ v ≤ 121)

/-- Operand-2 is a 6-trit field: -364..364 (30_encoding.md R61). -/
abbrev fitsOp2 (v : Int) : Bool := decide (-364 ≤ v ∧ v ≤ 364)

/-- The opcode field is a 4-trit field: -40..40 (30_encoding.md R62). -/
abbrev fitsOpcode (v : Int) : Bool := decide (-40 ≤ v ∧ v ≤ 40)

/-- The sixteen opcode values that 30_encoding.md R66 assigns. -/
def assignedOpcodes : List Int := [0, 1, 2, 3, 4, 6, 11, 12, 20, 21, 22, 23, 24, 30, 31, 32]

/-- An instruction is well formed when every field's value fits its trits, and the no-op's opcode is one of the 65
values that select no instruction (30_encoding.md R68). -/
def Instr.wf : Instr → Bool
  | .halt a b => fitsOp1 a && fitsOp2 b
  | .add a b => fitsOp1 a && fitsOp2 b
  | .sub a b => fitsOp1 a && fitsOp2 b
  | .mul a b => fitsOp1 a && fitsOp2 b
  | .div a b => fitsOp1 a && fitsOp2 b
  | .neg a b => fitsOp1 a && fitsOp2 b
  | .set a b => fitsOp1 a && fitsOp2 b
  | .cpy a b => fitsOp1 a && fitsOp2 b
  | .jmp a b => fitsOp1 a && fitsOp2 b
  | .brn a b => fitsOp1 a && fitsOp2 b
  | .brp a b => fitsOp1 a && fitsOp2 b
  | .tri a b => fitsOp1 a && fitsOp2 b
  | .call a b => fitsOp1 a && fitsOp2 b
  | .rect a b => fitsOp1 a && fitsOp2 b
  | .pollMouse a b => fitsOp1 a && fitsOp2 b
  | .pollKey a b => fitsOp1 a && fitsOp2 b
  | .unknownOpcode c a b => fitsOpcode c && !assignedOpcodes.contains c && fitsOp1 a && fitsOp2 b

end Sys2Proof
end

