-- ==== Sys2Proof/Decode.lean ====
section
/-! DEFINITION. The decoder and the encoder (30_encoding.md), and the host's numbering of an instruction's bits. -/

namespace Sys2Proof

open Sys2Proof.Machine (balancedTrits tritsValue)

/-- Why a string of trits is no instruction. Every string of 15 trits is one (30_encoding.md R70). -/
inductive DecodeRefusal where
  /-- An instruction is exactly 15 trits long (30_encoding.md R60). -/
  | notFifteenTrits
  deriving DecidableEq, Repr

/-- Dispatch on the integer value of the opcode field and nothing else (30_encoding.md R62, R66, R68;
41_step_cycle.md R100, R103). -/
def decodeFields (opcode op1 op2 : Int) : Instr :=
  if opcode = 0 then .halt op1 op2
  else if opcode = 1 then .add op1 op2
  else if opcode = 2 then .sub op1 op2
  else if opcode = 3 then .mul op1 op2
  else if opcode = 4 then .div op1 op2
  else if opcode = 6 then .neg op1 op2
  else if opcode = 11 then .set op1 op2
  else if opcode = 12 then .cpy op1 op2
  else if opcode = 20 then .jmp op1 op2
  else if opcode = 21 then .brn op1 op2
  else if opcode = 22 then .brp op1 op2
  else if opcode = 23 then .tri op1 op2
  else if opcode = 24 then .call op1 op2
  else if opcode = 30 then .rect op1 op2
  else if opcode = 31 then .pollMouse op1 op2
  else if opcode = 32 then .pollKey op1 op2
  else .unknownOpcode opcode op1 op2

/-- The instruction of 15 trits in address order: opcode in cells 0..3, operand-1 in 4..8, operand-2 in 9..14, each field
decoded on its own (30_encoding.md R61, 20_memory.md R42). -/
def decode (ts : List Trit) : Except DecodeRefusal Instr :=
  if ts.length = 15 then
    .ok (decodeFields (tritsValue (ts.take 4)) (tritsValue ((ts.drop 4).take 5)) (tritsValue ((ts.drop 9).take 6)))
  else .error .notFifteenTrits

/-- The opcode number of an instruction (30_encoding.md R66). -/
def Instr.opcodeNumber : Instr → Int
  | .halt _ _ => 0
  | .add _ _ => 1
  | .sub _ _ => 2
  | .mul _ _ => 3
  | .div _ _ => 4
  | .neg _ _ => 6
  | .set _ _ => 11
  | .cpy _ _ => 12
  | .jmp _ _ => 20
  | .brn _ _ => 21
  | .brp _ _ => 22
  | .tri _ _ => 23
  | .call _ _ => 24
  | .rect _ _ => 30
  | .pollMouse _ _ => 31
  | .pollKey _ _ => 32
  | .unknownOpcode c _ _ => c

/-- The raw value of the operand-1 field. -/
def Instr.op1Field : Instr → Int
  | .halt a _ | .add a _ | .sub a _ | .mul a _ | .div a _ | .neg a _ | .set a _ | .cpy a _ | .jmp a _ | .brn a _
  | .brp a _ | .tri a _ | .call a _ | .rect a _ | .pollMouse a _ | .pollKey a _ | .unknownOpcode _ a _ => a

/-- The raw value of the operand-2 field. -/
def Instr.op2Field : Instr → Int
  | .halt _ b | .add _ b | .sub _ b | .mul _ b | .div _ b | .neg _ b | .set _ b | .cpy _ b | .jmp _ b | .brn _ b
  | .brp _ b | .tri _ b | .call _ b | .rect _ b | .pollMouse _ b | .pollKey _ b | .unknownOpcode _ _ b => b

/-- The 15 trits of three field values, each truncated to its field (30_encoding.md R61, R74). -/
def encodeFields (opcode op1 op2 : Int) : List Trit :=
  balancedTrits 4 opcode ++ balancedTrits 5 op1 ++ balancedTrits 6 op2

/-- The 15 trits of an instruction, in address order (30_encoding.md R61, R66). -/
def encode (i : Instr) : List Trit := encodeFields i.opcodeNumber i.op1Field i.op2Field

/-- The trit of a pair of the host's bits: 0 is 0, 1 is +, 2 is -, and 3 is no trit. DESIGN CHOICE (log entry 10): the
machine has no bits (00_scope.md R6), the host numbers them. -/
def tritOfPair (p : Nat) : Option Trit :=
  if p = 0 then some .zero else if p = 1 then some .pos else if p = 2 then some .neg else none

/-- The first k trits of the host's number w, two bits a trit, the cell at the lowest address in the lowest bits. -/
def wordTrits : Nat → Nat → Option (List Trit)
  | 0, w => if w = 0 then some [] else none
  | k + 1, w =>
    match tritOfPair (w % 4), wordTrits k (w / 4) with
    | some t, some ts => some (t :: ts)
    | _, _ => none

/-- The 15 trits that the host's number w of nbits bits stands for; none where a pair is no trit or a bit beyond the
fifteenth pair is set. -/
def hostTrits (nbits w : Nat) : Option (List Trit) := wordTrits 15 (w % 2 ^ nbits)

/-- The instruction the decoder reads from the host's number (log entry 10). -/
def decodeTableWord (nbits w : Nat) : Option Instr :=
  match hostTrits nbits w with
  | none => none
  | some ts =>
    match decode ts with
    | .ok i => some i
    | .error _ => none

end Sys2Proof
end

