-- ==== Sys2Proof/Machine/Fetch.lean ====
section
/-! DEFINITION. Fetching the instruction at `pc`, and placing one there. -/

namespace Sys2Proof.Machine

/-- The three fields are decoded from the 15 cells at `pc`, whatever the opcode and wherever `pc` is
(41_step_cycle.md R102, 20_memory.md R46). -/
def State.fetch (s : State) : Instr :=
  decodeFields (s.memRead s.pc 4) (s.memRead (s.pc + 4) 5) (s.memRead (s.pc + 9) 6)

/-- Are all fifteen cells of a slot at a in memory? -/
def State.slotInMemory (s : State) (a : Int) : Bool := s.inMemory a && s.inMemory (a + 14)

/-- Running, with no agent's move before the CPU's, and `pc` at a slot that memory holds (the boot address, or else 0,
where it is at none): what it takes for the very next step to be a fetch from cells that can be written. -/
def State.readyToFetch (s : State) : State :=
  { s with
    halted := false
    schedule := []
    pc :=
      if s.slotInMemory s.pc then s.pc
      else if s.slotInMemory (s.build.bootAddr : Int) then (s.build.bootAddr : Int) else 0 }

/-- The state with 15 trits stored where the next step fetches (log entry 9). -/
def State.placeAtPc (s : State) (ts : List Trit) : State := (s.readyToFetch).writeTrits (s.readyToFetch).pc ts

end Sys2Proof.Machine
end

