-- ==== Sys2Proof/Machine/Loader.lean ====
section
/-! DEFINITION. The loader's `launch` (70_reset_and_hazards.md R165 to R171), which is the machine's only reset. -/

namespace Sys2Proof.Machine

/-- Zeroing the window [CLEAR_LO, CLEAR_HI); addresses beyond memory hold nothing to clear (R167). -/
def State.clearWindow (s : State) : State := { s with mem := s.mem.clear s.build.clearLo s.build.clearHi }

/-- One record written at the cursor: three codec writes, each truncated to its field (R167, 30_encoding.md R74). -/
def State.writeRecord (s : State) (c : Int) (r : ImageRecord) : State :=
  ((s.memWrite c 4 r.opcode).memWrite (c + 4) 5 r.arg1).memWrite (c + 9) 6 r.arg2

/-- The records of an image in consecutive 15-trit slots from the cursor; nothing checks that they fit (R167, R170,
D22). -/
def State.writeImage (s : State) (c : Int) : List ImageRecord → State
  | [] => s
  | r :: rs => (s.writeRecord c r).writeImage (c + 15) rs

/-- `for i in 0 .. 26: x[i] <- 0` (R167). -/
def State.zeroRegisters (s : State) : State := { s with x := Vector.replicate 27 0 }

/-- `launch` of an image that exists, as one atomic transition (R167). The ports are not touched (D30). -/
def State.launchImage (s : State) (image : List ImageRecord) : State :=
  (((((s.setHalted true).clearWindow).writeImage (s.build.bootAddr : Int) image).zeroRegisters).jump
    (s.build.bootAddr : Int)).setHalted false

/-- `launch`: a missing image changes nothing (R168, C2). -/
def State.launch (s : State) (image : Option (List ImageRecord)) : State :=
  match image with
  | none => s
  | some im => s.launchImage im

end Sys2Proof.Machine
end

