-- ==== Sys2Proof/Machine/Step.lean ====
section
/-! DEFINITION. The transitions of the machine: the CPU's `step()` (41_step_cycle.md R100) and, between two of them, the
moves of the agents around the core (00_scope.md R17, 60_exceptions.md R160). -/

namespace Sys2Proof.Machine

/-- The CPU's `step()`: a no-op when Halted (41_step_cycle.md R101), else the fetched instruction (R100). -/
def cpuStep (s : State) : Host.Outcome State Fault Refusal :=
  if s.halted then .next s else exec s.fetch s

/-- One atomic transition of whichever agent moves next: the head of the schedule, or the CPU when it is empty (log
entry 7). -/
def step (s : State) : Host.Outcome State Fault Refusal :=
  match s.schedule with
  | [] => cpuStep s
  | .cpuStep :: ms => cpuStep { s with schedule := ms }
  | .bridge w :: ms => .next (State.bridgeWrite { s with schedule := ms } w)
  | .launch image :: ms => .next (State.launch { s with schedule := ms } image)
  | .render :: ms => .next { s with schedule := ms }

/-- The state whose very next step fetches and runs the instruction of the host's number w (log entries 9 and 10); a
number that stands for no trits leaves the state as it is. -/
def State.withFetchWord (s : State) (nbits w : Nat) : State :=
  match hostTrits nbits w with
  | none => s
  | some ts => s.placeAtPc ts

end Sys2Proof.Machine
end

