-- ==== Sys2Proof/Machine/Assembler.lean ====
section
/-! DEFINITION. The assembler's text format (30_encoding.md R72 to R77): software around the core, which the spec has in
scope as the toolchain's syntax (00_scope.md R3). It turns lines of text into the records of an image; the loader writes
them. -/

namespace Sys2Proof.Machine

/-- The sixteen recognised mnemonics with their opcode numbers; HALT is emitted as 0 (30_encoding.md R66, R73). -/
def mnemonicTable : List (List Char × Int) :=
  [("HALT".toList, 0), ("ADD".toList, 1), ("SUB".toList, 2), ("MUL".toList, 3), ("DIV".toList, 4), ("NEG".toList, 6),
    ("SET".toList, 11), ("CPY".toList, 12), ("JMP".toList, 20), ("BRN".toList, 21), ("BRP".toList, 22),
    ("TRI".toList, 23), ("CALL".toList, 24), ("RECT".toList, 30), ("POLL_MOUSE".toList, 31), ("POLL_KEY".toList, 32)]

/-- Everything from the comment marker onward is stripped (30_encoding.md R72). -/
def stripComment (marker : List Char) : List Char → List Char
  | [] => []
  | c :: cs => if marker.isPrefixOf (c :: cs) then [] else c :: stripComment marker cs

/-- The whitespace-separated tokens of a line; `cur` holds the token being read, last character first. -/
def tokensFrom (cur : List Char) : List Char → List (List Char)
  | [] => if cur.isEmpty then [] else [cur.reverse]
  | c :: cs =>
    if c.isWhitespace then
      (if cur.isEmpty then tokensFrom [] cs else cur.reverse :: tokensFrom [] cs)
    else tokensFrom (c :: cur) cs

/-- One or more decimal digits. -/
def parseDigits (cs : List Char) : Option Nat :=
  if cs.isEmpty then none
  else if cs.all Char.isDigit then some (cs.foldl (fun n c => 10 * n + (c.toNat - '0'.toNat)) 0)
  else none

/-- A decimal integer: an optional `-` and digits (30_encoding.md R72, D21). -/
def parseDecimal (cs : List Char) : Option Int :=
  match cs with
  | '-' :: ds => (parseDigits ds).map (fun n => -(n : Int))
  | ds => (parseDigits ds).map (fun n => (n : Int))

/-- Token k as an argument: 0 where it is missing or no decimal integer (30_encoding.md R72). -/
def argumentAt (tokens : List (List Char)) (k : Nat) : Int :=
  match tokens[k]? with
  | none => 0
  | some t => (parseDecimal t).getD 0

/-- One line: a record for a recognised mnemonic in any case, nothing for any other line; arguments go to the fields
strictly by position (30_encoding.md R73, R74, R76). -/
def assembleLine (b : Build) (line : List Char) : Option ImageRecord :=
  match tokensFrom [] (stripComment b.commentMarker line) with
  | [] => none
  | name :: args =>
    match mnemonicTable.lookup (name.map Char.toUpper) with
    | none => none
    | some op => some { opcode := op, arg1 := argumentAt args 0, arg2 := argumentAt args 1 }

/-- The image of a program text, one record per recognised line in order (30_encoding.md R73, 70_reset_and_hazards.md
R170). -/
def assemble (b : Build) (lines : List (List Char)) : List ImageRecord := lines.filterMap (assembleLine b)

/-- `launch` from a program text: the assembler runs inside it (70_reset_and_hazards.md R167). -/
def State.launchText (s : State) (source : Option (List (List Char))) : State :=
  s.launch (source.map (assemble s.build))

end Sys2Proof.Machine
end

