-- ==== Sys2Proof/Safety.lean ====
section
/-! DEFINITION. The terms claims use: the invariant of a state, the frames of an instruction, and what an instruction may
write. -/

namespace Sys2Proof.Machine

/-- A register's or a port's range, -H(50)..H(50) (10_state.md R22, R33). -/
abbrev inWordRange (v : Int) : Prop := -maxValue 50 ≤ v ∧ v ≤ maxValue 50

/-- A move the agents around the core may make: the bridge writes a port a value of its type (60_exceptions.md R157). -/
def HostMove.wf : HostMove → Bool
  | .bridge (.mouseX v) => decide (inWordRange v)
  | .bridge (.mouseY v) => decide (inWordRange v)
  | .bridge (.click v) => decide (inWordRange v)
  | .bridge (.key _ _) => true
  | .cpuStep => true
  | .launch _ => true
  | .render => true

/-- The invariant of a state: memory in its canonical form and within MEM_SIZE (10_state.md R32), every register and
mouse port in the range of a Word (R22, R33), the keycodes that are down strictly rising, and every coming port write in
its port's type. -/
abbrev State.Inv (s : State) : Prop :=
  s.mem.wf ∧ (∀ c ∈ s.mem, c.1 < s.build.memSize) ∧ (∀ r : Reg, inWordRange (s.readReg r)) ∧
    inWordRange s.portMx ∧ inWordRange s.portMy ∧ inWordRange s.portClick ∧
    s.heldKeys.Pairwise (fun a b => a < b) ∧ ∀ m ∈ s.schedule, m.wf = true

/-- Every cell reads as before. -/
def SameMemory (s t : State) : Prop := ∀ a : Int, t.readCell a = s.readCell a

/-- Every register reads as before. -/
def SameRegisters (s t : State) : Prop := ∀ r : Reg, t.readReg r = s.readReg r

/-- Every register but one reads as before. -/
def SameRegistersBut (d : Reg) (s t : State) : Prop := ∀ r : Reg, r ≠ d → t.readReg r = s.readReg r

/-- The ports, the build and the moves to come are as before. -/
def SameSurroundings (s t : State) : Prop :=
  t.portMx = s.portMx ∧ t.portMy = s.portMy ∧ t.portClick = s.portClick ∧ t.heldKeys = s.heldKeys ∧
    t.build = s.build ∧ t.schedule = s.schedule

/-- The frame of an instruction that writes one register and advances: `d` gets v, and nothing else changes but `pc`,
which is 15 more (41_step_cycle.md R104). -/
def WritesRegister (d : Reg) (v : Int) (s t : State) : Prop :=
  t.readReg d = v ∧ SameRegistersBut d s t ∧ t.pc = s.pc + 15 ∧ t.halted = s.halted ∧ SameMemory s t ∧
    SameSurroundings s t

/-- The frame of an instruction that assigns `pc` and nothing else. -/
def MovesPc (p : Int) (s t : State) : Prop :=
  t.pc = p ∧ SameRegisters s t ∧ t.halted = s.halted ∧ SameMemory s t ∧ SameSurroundings s t

/-- The register an instruction may write, if any (10_state.md R24, 30_encoding.md R65). -/
def destination (b : Build) : Instr → Option Reg
  | .add op1 _ | .sub op1 _ | .mul op1 _ | .div op1 _ | .neg op1 _ | .tri op1 _ | .set op1 _ | .cpy op1 _
  | .pollMouse op1 _ | .pollKey op1 _ => some (ri op1)
  | .call _ _ => some b.spIndex
  | .halt _ _ | .jmp _ _ | .brn _ _ | .brp _ _ | .rect _ _ | .unknownOpcode _ _ _ => none

/-- Does the instruction write memory (20_memory.md R47)? -/
def writesMemory : Instr → Bool
  | .call _ _ | .rect _ _ => true
  | .halt _ _ | .add _ _ | .sub _ _ | .mul _ _ | .div _ _ | .neg _ _ | .set _ _ | .cpy _ _ | .jmp _ _ | .brn _ _
  | .brp _ _ | .tri _ _ | .pollMouse _ _ | .pollKey _ _ | .unknownOpcode _ _ _ => false

/-- Does the instruction read a port (45_io_instructions.md R135)? -/
def readsPort : Instr → Bool
  | .pollMouse _ _ | .pollKey _ _ => true
  | .halt _ _ | .add _ _ | .sub _ _ | .mul _ _ | .div _ _ | .neg _ _ | .set _ _ | .cpy _ _ | .jmp _ _ | .brn _ _
  | .brp _ _ | .tri _ _ | .call _ _ | .rect _ _ | .unknownOpcode _ _ _ => false

/-- The target operand of a control transfer, if the instruction is one (44_control_transfer.md R125). -/
def transferTarget : Instr → Option Int
  | .jmp _ op2 | .brn _ op2 | .brp _ op2 | .call _ op2 => some op2
  | .halt _ _ | .add _ _ | .sub _ _ | .mul _ _ | .div _ _ | .neg _ _ | .set _ _ | .cpy _ _ | .tri _ _ | .rect _ _
  | .pollMouse _ _ | .pollKey _ _ | .unknownOpcode _ _ _ => none

/-- The state with other port values (60_exceptions.md R157: what the bridge may replace). -/
def State.withPorts (s : State) (mx my click : Int) (held : List Int) : State :=
  { s with portMx := mx, portMy := my, portClick := click, heldKeys := held }

/-- Is pixel (p, q) in the rectangle of corner (px, py), width w and height h, and in the framebuffer
(45_io_instructions.md R136)? -/
abbrev pixelCovered (b : Build) (px py w h p q : Int) : Prop :=
  px ≤ p ∧ p < px + w ∧ py ≤ q ∧ q < py + h ∧ 0 ≤ p ∧ p < (b.fbWidth : Int) ∧ 0 ≤ q ∧ q < (b.fbHeight : Int)

end Sys2Proof.Machine
end

