-- ==== Sys2Proof/Certificates/Slice0/Obligations.lean ====
section
/-! DEFINITION. The statements for the provers. Every one ranges over every build of State.build that its hypotheses
allow (log entry 2), and over the states no run reaches as well. -/

open Sys2Proof Sys2Proof.Machine

/-! Encoding and decoding -/

/-- 30_encoding.md sections 1 to 3 (the packing of the fields is the spec's decision D5, log entry 14): encoding a
well-formed instruction and decoding its fifteen trits gives it back. -/
def Obligations.EncodeThenDecodeGivesInstruction : Prop :=
  ∀ i : Instr, i.wf = true → decode (encode i) = .ok i

/-- 30_encoding.md sections 1 and 4: the decoder is total on fifteen trits, gives a well-formed instruction, and drops
no trit; it refuses every other length. -/
def Obligations.DecodeThenEncodeGivesTrits : Prop :=
  ∀ ts : List Trit,
    (ts.length = 15 → ∃ i, decode ts = .ok i ∧ i.wf = true ∧ encode i = ts) ∧
      (ts.length ≠ 15 → decode ts = .error .notFifteenTrits)

/-- 30_encoding.md section 6 and 95_test_vectors.md sections 1.2 and 2.4: cells written out from the encoding. -/
def Obligations.KnownCellsDecode : Prop :=
  -- `-++0 00000 --+000`, SET 0 5
  decode [.neg, .pos, .pos, .zero, .zero, .zero, .zero, .zero, .zero, .neg, .neg, .pos, .zero, .zero, .zero] =
      .ok (.set 0 5) ∧
    -- `+000 +00+0 -00000`, ADD with op1 28 and op2 -1
    decode [.pos, .zero, .zero, .zero, .pos, .zero, .zero, .pos, .zero, .neg, .zero, .zero, .zero, .zero, .zero] =
      .ok (.add 28 (-1)) ∧
    -- `++-+ 00000 0+0+00`, BRP 0 30
    decode [.pos, .pos, .neg, .pos, .zero, .zero, .zero, .zero, .zero, .zero, .pos, .zero, .pos, .zero, .zero] =
      .ok (.brp 0 30) ∧
    -- `--++ 0+000 -++-+0`, POLL_KEY 3 65
    decode [.neg, .neg, .pos, .pos, .zero, .pos, .zero, .zero, .zero, .neg, .pos, .pos, .neg, .pos, .zero] =
      .ok (.pollKey 3 65) ∧
    -- `0000 +++++ ------`, HALT with its operands ignored
    decode [.zero, .zero, .zero, .zero, .pos, .pos, .pos, .pos, .pos, .neg, .neg, .neg, .neg, .neg, .neg] =
      .ok (.halt 121 (-364)) ∧
    -- `-000 00000 000000`, opcode -1
    decode [.neg, .zero, .zero, .zero, .zero, .zero, .zero, .zero, .zero, .zero, .zero, .zero, .zero, .zero, .zero] =
      .ok (.unknownOpcode (-1) 0 0)

/-- 30_encoding.md section 3 (R67, decision D25): HALT's second number 45 is written as `00--`, which is opcode -36, a
no-op and not HALT. -/
def Obligations.FortyFiveIsNotHalt : Prop :=
  Sys2Proof.Machine.balancedTrits 4 45 = [.zero, .zero, .neg, .neg] ∧
    ∀ op1 op2 : Int, decode (encodeFields 45 op1 op2) = .ok (.unknownOpcode (-36) (bal 5 op1) (bal 6 op2))

/-- 30_encoding.md section 2 (that "mod" is the floored remainder is the spec's decision D6, log entry 14): any integer
names a register 0..26, its floored residue modulo 27, and of a field only the three low trits count. -/
def Obligations.RegisterIndexWraps : Prop :=
  (∀ v : Int, 0 ≤ ((ri v).val : Int) ∧ ((ri v).val : Int) < 27 ∧ (v - ((ri v).val : Int)) % 27 = 0) ∧
    (∀ ts : List Trit, ri (tritsValue ts) = ri (tritsValue (ts.take 3))) ∧
    ri 28 = 1 ∧ ri (-1) = 26 ∧ ri (-121) = 14 ∧ ri 121 = 13

/-! The codec -/

/-- 40_codec.md R92: `clamp` is the residue modulo 3^50 in -H(50)..H(50), as the rule's pseudocode computes it, and the
only one. -/
def Obligations.ClampIsBalancedResidue : Prop :=
  maxValue 50 = 358948993845926294385124 ∧ ((3 ^ 50 : Nat) : Int) = 717897987691852588770249 ∧
    ∀ v : Int,
      clamp v = (if v % 717897987691852588770249 > 358948993845926294385124
        then v % 717897987691852588770249 - 717897987691852588770249 else v % 717897987691852588770249) ∧
      -358948993845926294385124 ≤ clamp v ∧ clamp v ≤ 358948993845926294385124 ∧
      (clamp v - v) % 717897987691852588770249 = 0 ∧
      ∀ r : Int, -358948993845926294385124 ≤ r → r ≤ 358948993845926294385124 →
        (r - v) % 717897987691852588770249 = 0 → r = clamp v

/-- 40_codec.md section 4 (R93): `clamp` is idempotent, the identity on its range, odd, compatible with +, - and ×, and
wraps without saturating. -/
def Obligations.ClampIsARingReduction : Prop :=
  (∀ v : Int, clamp (clamp v) = clamp v) ∧
    (∀ v : Int, inWordRange v → clamp v = v) ∧
    (∀ v : Int, clamp (-v) = -clamp v) ∧
    (∀ v w : Int, clamp (v + w) = clamp (clamp v + clamp w)) ∧
    (∀ v w : Int, clamp (v - w) = clamp (clamp v - clamp w)) ∧
    (∀ v w : Int, clamp (v * w) = clamp (clamp v * clamp w)) ∧
    (∀ k : Int, 1 ≤ k → k ≤ ((3 ^ 50 : Nat) : Int) → clamp (maxValue 50 + k) = -maxValue 50 + k - 1)

/-- 40_codec.md section 3 (R91): every value of the range survives encode and decode, and writing back what was read
changes no cell, for any length and any place whose cells are in memory. -/
def Obligations.CodecRoundTrips : Prop :=
  ∀ (s : State) (a : Int) (n : Nat), s.mem.wf → (∀ k : Nat, k < n → s.inMemory (a + (k : Int)) = true) →
    (∀ v : Int, -maxValue n ≤ v → v ≤ maxValue n → (s.memWrite a n v).memRead a n = v) ∧
      ∀ b : Int, (s.memWrite a n (s.memRead a n)).readCell b = s.readCell b

/-- 40_codec.md section 3 (R88, R90) and 20_memory.md section 3 (the spec's decision D11, log entry 14): a write puts
the low n balanced trits of the value into the cells that memory has, so that reading them back gives the residue;
every other cell reads as before, and a cell outside memory still reads 0. -/
def Obligations.EncodeTruncatesAndStaysInPlace : Prop :=
  ∀ (s : State) (a v : Int) (n : Nat), s.mem.wf →
    ((∀ k : Nat, k < n → s.inMemory (a + (k : Int)) = true) →
      ((s.memWrite a n v).memRead a n - v) % ((3 ^ n : Nat) : Int) = 0) ∧
    (∀ k : Nat, k < n → s.inMemory (a + (k : Int)) = true →
      some ((s.memWrite a n v).readCell (a + (k : Int))) = (Sys2Proof.Machine.balancedTrits n v)[k]?) ∧
    (∀ b : Int, ¬(a ≤ b ∧ b < a + (n : Int)) → (s.memWrite a n v).readCell b = s.readCell b) ∧
    (∀ b : Int, ¬(0 ≤ b ∧ b < (s.build.memSize : Int)) → (s.memWrite a n v).readCell b = .zero)

/-- 40_codec.md section 2 (R86, R87): decode is a bijection between n-trit strings and -H(n)..H(n), and zero trits at
the high end do not change a value. -/
def Obligations.DecodeIsABijection : Prop :=
  (∀ ts us : List Trit, ts.length = us.length → tritsValue ts = tritsValue us → ts = us) ∧
    (∀ ts : List Trit, -maxValue ts.length ≤ tritsValue ts ∧ tritsValue ts ≤ maxValue ts.length) ∧
    (∀ (n : Nat) (v : Int), -maxValue n ≤ v → v ≤ maxValue n → ∃ ts : List Trit, ts.length = n ∧ tritsValue ts = v) ∧
    (∀ (ts : List Trit) (k : Nat), tritsValue (ts ++ List.replicate k .zero) = tritsValue ts)

/-- 20_memory.md section 2 (R42; the packing of the fields is the spec's decision D5, log entry 14): the fifteen cells
of a slot read as one number are the three fields weighted. -/
def Obligations.SlotReadAsOneNumber : Prop :=
  ∀ (s : State) (a : Int),
    s.memRead a 15 = s.memRead a 4 + 81 * s.memRead (a + 4) 5 + 19683 * s.memRead (a + 9) 6

/-! Arithmetic and compare -/

/-- 42_arithmetic.md R111. -/
def Obligations.AddWritesClampedSum : Prop :=
  ∀ (op1 op2 : Int) (s : State),
    encode (.add op1 op2) = [.pos, .zero, .zero, .zero] ++ Sys2Proof.Machine.balancedTrits 5 op1 ++
      Sys2Proof.Machine.balancedTrits 6 op2 ∧
      ∃ t, exec (.add op1 op2) s = .next t ∧
        WritesRegister (ri op1) (clamp (s.readReg (ri op1) + s.readReg (ri op2))) s t

/-- 42_arithmetic.md R112. -/
def Obligations.SubWritesClampedDifference : Prop :=
  ∀ (op1 op2 : Int) (s : State),
    encode (.sub op1 op2) = [.neg, .pos, .zero, .zero] ++ Sys2Proof.Machine.balancedTrits 5 op1 ++
      Sys2Proof.Machine.balancedTrits 6 op2 ∧
      ∃ t, exec (.sub op1 op2) s = .next t ∧
        WritesRegister (ri op1) (clamp (s.readReg (ri op1) - s.readReg (ri op2))) s t

/-- 42_arithmetic.md R113. -/
def Obligations.MulWritesClampedProduct : Prop :=
  ∀ (op1 op2 : Int) (s : State),
    encode (.mul op1 op2) = [.zero, .pos, .zero, .zero] ++ Sys2Proof.Machine.balancedTrits 5 op1 ++
      Sys2Proof.Machine.balancedTrits 6 op2 ∧
      ∃ t, exec (.mul op1 op2) s = .next t ∧
        WritesRegister (ri op1) (clamp (s.readReg (ri op1) * s.readReg (ri op2))) s t

/-- 42_arithmetic.md section on DIV (R114, decision D7; log entry 3): the quotient is 0 for a zero divisor, exact where
the divisor divides, else one of the two neighbouring integers, which of them the build says (toward zero and floored
are given as such; a `free` build gives no more than "one of the two"); in range, `clamp` does not change it. -/
def Obligations.DivWritesAdmissibleQuotient : Prop :=
  ∀ (op1 op2 : Int) (s : State),
    encode (.div op1 op2) = [.pos, .pos, .zero, .zero] ++ Sys2Proof.Machine.balancedTrits 5 op1 ++
      Sys2Proof.Machine.balancedTrits 6 op2 ∧
      ∃ t q, exec (.div op1 op2) s = .next t ∧ WritesRegister (ri op1) (clamp q) s t ∧
      (s.readReg (ri op2) = 0 → q = 0) ∧
      (s.readReg (ri op2) ≠ 0 → s.readReg (ri op2) ∣ s.readReg (ri op1) →
        q * s.readReg (ri op2) = s.readReg (ri op1)) ∧
      (s.readReg (ri op2) ≠ 0 → |s.readReg (ri op1) - q * s.readReg (ri op2)| < |s.readReg (ri op2)|) ∧
      (s.readReg (ri op2) ≠ 0 → s.build.divRound = .towardZero →
        q = (s.readReg (ri op1)).tdiv (s.readReg (ri op2))) ∧
      (s.readReg (ri op2) ≠ 0 → s.build.divRound = .floored →
        q = (s.readReg (ri op1)).fdiv (s.readReg (ri op2))) ∧
      (inWordRange (s.readReg (ri op1)) → t.readReg (ri op1) = q)

/-- 42_arithmetic.md R115. -/
def Obligations.NegWritesNegation : Prop :=
  ∀ (op1 op2 : Int) (s : State),
    encode (.neg op1 op2) = [.zero, .neg, .pos, .zero] ++ Sys2Proof.Machine.balancedTrits 5 op1 ++
      Sys2Proof.Machine.balancedTrits 6 op2 ∧
      (∃ t, exec (.neg op1 op2) s = .next t ∧ WritesRegister (ri op1) (-(s.readReg (ri op1))) s t) ∧
      (inWordRange (s.readReg (ri op1)) → inWordRange (-(s.readReg (ri op1))))

/-- 42_arithmetic.md section on TRI (R116, decision D8: the difference is exact): a true comparison of the two
registers, over their whole range. -/
def Obligations.TriComparesRegisters : Prop :=
  ∀ (op1 op2 : Int) (s : State),
    encode (.tri op1 op2) = [.neg, .neg, .zero, .pos] ++ Sys2Proof.Machine.balancedTrits 5 op1 ++
      Sys2Proof.Machine.balancedTrits 6 op2 ∧
      ∃ t v, exec (.tri op1 op2) s = .next t ∧ WritesRegister (ri op1) v s t ∧
      (s.readReg (ri op1) < s.readReg (ri op2) → v = -1) ∧
      (s.readReg (ri op1) = s.readReg (ri op2) → v = 0) ∧
      (s.readReg (ri op1) > s.readReg (ri op2) → v = 1)

/-! Data movement -/

/-- 43_data_movement.md R120. -/
def Obligations.SetLoadsImmediate : Prop :=
  ∀ (op1 op2 : Int) (s : State),
    encode (.set op1 op2) = [.neg, .pos, .pos, .zero] ++ Sys2Proof.Machine.balancedTrits 5 op1 ++
      Sys2Proof.Machine.balancedTrits 6 op2 ∧
      (∃ t, exec (.set op1 op2) s = .next t ∧ WritesRegister (ri op1) (clamp op2) s t) ∧
      (-364 ≤ op2 → op2 ≤ 364 → clamp op2 = op2)

/-- 43_data_movement.md R121. -/
def Obligations.CpyCopiesRegister : Prop :=
  ∀ (op1 op2 : Int) (s : State),
    encode (.cpy op1 op2) = [.zero, .pos, .pos, .zero] ++ Sys2Proof.Machine.balancedTrits 5 op1 ++
      Sys2Proof.Machine.balancedTrits 6 op2 ∧
      ∃ t, exec (.cpy op1 op2) s = .next t ∧ WritesRegister (ri op1) (s.readReg (ri op2)) s t

/-! Control transfer -/

/-- 44_control_transfer.md section on HALT (R126; `pc` after it is decision D9, log entry 13). -/
def Obligations.HaltSetsHalted : Prop :=
  ∀ (op1 op2 : Int) (s : State),
    encode (.halt op1 op2) = [.zero, .zero, .zero, .zero] ++ Sys2Proof.Machine.balancedTrits 5 op1 ++
      Sys2Proof.Machine.balancedTrits 6 op2 ∧
      ∃ t, exec (.halt op1 op2) s = .next t ∧ t.halted = true ∧ t.pc = s.pc + 15 ∧ SameRegisters s t ∧
      SameMemory s t ∧ SameSurroundings s t

/-- 44_control_transfer.md R127. -/
def Obligations.JmpAssignsPc : Prop :=
  ∀ (op1 op2 : Int) (s : State),
    encode (.jmp op1 op2) = [.neg, .pos, .neg, .pos] ++ Sys2Proof.Machine.balancedTrits 5 op1 ++
      Sys2Proof.Machine.balancedTrits 6 op2 ∧
      ∃ t, exec (.jmp op1 op2) s = .next t ∧ MovesPc op2 s t

/-- 44_control_transfer.md R128. -/
def Obligations.BrnBranchesOnNegative : Prop :=
  ∀ (op1 op2 : Int) (s : State),
    encode (.brn op1 op2) = [.zero, .pos, .neg, .pos] ++ Sys2Proof.Machine.balancedTrits 5 op1 ++
      Sys2Proof.Machine.balancedTrits 6 op2 ∧
      ∃ t, exec (.brn op1 op2) s = .next t ∧
        (s.readReg (ri op1) < 0 → MovesPc op2 s t) ∧ (¬s.readReg (ri op1) < 0 → MovesPc (s.pc + 15) s t)

/-- 44_control_transfer.md R129. -/
def Obligations.BrpBranchesOnPositive : Prop :=
  ∀ (op1 op2 : Int) (s : State),
    encode (.brp op1 op2) = [.pos, .pos, .neg, .pos] ++ Sys2Proof.Machine.balancedTrits 5 op1 ++
      Sys2Proof.Machine.balancedTrits 6 op2 ∧
      ∃ t, exec (.brp op1 op2) s = .next t ∧
        (s.readReg (ri op1) > 0 → MovesPc op2 s t) ∧ (¬s.readReg (ri op1) > 0 → MovesPc (s.pc + 15) s t)

/-- 44_control_transfer.md section on CALL (R130, decision D12, log entry 12): the stack pointer goes down by 15 through
`clamp`, CALL_PUSH_LEN trits of A + 15 land there in the cells that memory has, and nothing else changes but `pc`. -/
def Obligations.CallPushesReturnAddress : Prop :=
  ∀ (op1 op2 : Int) (s : State),
    encode (.call op1 op2) = [.zero, .neg, .zero, .pos] ++ Sys2Proof.Machine.balancedTrits 5 op1 ++
      Sys2Proof.Machine.balancedTrits 6 op2 ∧
    (s.mem.wf → ∃ t, exec (.call op1 op2) s = .next t ∧ t.pc = op2 ∧ t.halted = s.halted ∧ SameSurroundings s t ∧
      t.readReg s.build.spIndex = clamp (s.readReg s.build.spIndex - 15) ∧
      SameRegistersBut s.build.spIndex s t ∧
      (∀ k : Nat, k < s.build.callPushLen → s.inMemory (clamp (s.readReg s.build.spIndex - 15) + (k : Int)) = true →
        some (t.readCell (clamp (s.readReg s.build.spIndex - 15) + (k : Int))) =
          (Sys2Proof.Machine.balancedTrits s.build.callPushLen (s.pc + 15))[k]?) ∧
      ((∀ k : Nat, k < s.build.callPushLen →
          s.inMemory (clamp (s.readReg s.build.spIndex - 15) + (k : Int)) = true) →
        t.memRead (clamp (s.readReg s.build.spIndex - 15)) s.build.callPushLen = bal s.build.callPushLen (s.pc + 15)) ∧
      (∀ a : Int,
        ¬(clamp (s.readReg s.build.spIndex - 15) ≤ a ∧
          a < clamp (s.readReg s.build.spIndex - 15) + (s.build.callPushLen : Int)) →
        t.readCell a = s.readCell a))

/-- 41_step_cycle.md R105: for each of the 65 unassigned opcode values the body is empty. -/
def Obligations.UnknownOpcodeOnlyAdvances : Prop :=
  (∀ (c op1 op2 : Int) (s : State), exec (.unknownOpcode c op1 op2) s = .next { s with pc := s.pc + 15 }) ∧
    ∀ s : State, s.schedule = [] → s.halted = false → s.memRead s.pc 4 ∉ assignedOpcodes →
      step s = .next { s with pc := s.pc + 15 }

/-! Framebuffer and input -/

/-- 45_io_instructions.md section on RECT (R136 to R138, decisions D14 and D15): exactly the pixels of the rectangle
that the framebuffer holds get the three channel values, each truncated to three trits; nothing else changes but `pc`.
-/
def Obligations.RectPaintsClippedRectangle : Prop :=
  ∀ (op1 op2 : Int) (s : State),
    encode (.rect op1 op2) = [.zero, .pos, .zero, .pos] ++ Sys2Proof.Machine.balancedTrits 5 op1 ++
      Sys2Proof.Machine.balancedTrits 6 op2 ∧
    (s.mem.wf → ∃ t, exec (.rect op1 op2) s = .next t ∧ t.pc = s.pc + 15 ∧ t.halted = s.halted ∧ SameRegisters s t ∧
      SameSurroundings s t ∧
      (s.build.fbEnd ≤ s.build.memSize →
        ∀ p q : Int, pixelCovered s.build (s.readReg 3) (s.readReg 4) (s.readReg 5) (s.readReg 6) p q →
          t.pixel p q = (bal 3 (s.readReg 0), bal 3 (s.readReg 1), bal 3 (s.readReg 2))) ∧
      (∀ (p q : Int) (k : Nat), pixelCovered s.build (s.readReg 3) (s.readReg 4) (s.readReg 5) (s.readReg 6) p q →
        k < 9 → s.inMemory (pixelBase s.build p q + (k : Int)) = true →
        some (t.readCell (pixelBase s.build p q + (k : Int))) =
          (Sys2Proof.Machine.balancedTrits 3 (s.readReg 0) ++ Sys2Proof.Machine.balancedTrits 3 (s.readReg 1) ++
            Sys2Proof.Machine.balancedTrits 3 (s.readReg 2))[k]?) ∧
      (∀ a : Int,
        (∀ p q : Int, pixelCovered s.build (s.readReg 3) (s.readReg 4) (s.readReg 5) (s.readReg 6) p q →
          ¬(pixelBase s.build p q ≤ a ∧ a < pixelBase s.build p q + 9)) →
        t.readCell a = s.readCell a))

/-- 45_io_instructions.md section on RECT (R138; the spec's decisions D14 and D15, log entry 14): no cell outside the
framebuffer region changes, and an empty rectangle changes no cell at all. -/
def Obligations.RectStaysInTheFramebuffer : Prop :=
  ∀ (op1 op2 : Int) (s : State),
    ∃ t, exec (.rect op1 op2) s = .next t ∧
      (∀ a : Int, ¬((s.build.fbBase : Int) ≤ a ∧ a < (s.build.fbEnd : Int)) → t.readCell a = s.readCell a) ∧
      (s.readReg 5 ≤ 0 ∨ s.readReg 6 ≤ 0 → SameMemory s t)

/-- 45_io_instructions.md section on POLL_MOUSE (R139; the selector is the build's, D16, and a selector that names no
port gives 0, the spec's decision D16, log entry 15): a port in its range is copied as it stands, and since the model's
bridge may write any integer the read applies `clamp` to any other (R139, D17, log entry 19). -/
def Obligations.PollMouseReadsSelectedPort : Prop :=
  ∀ (op1 op2 : Int) (s : State),
    encode (.pollMouse op1 op2) = [.pos, .pos, .zero, .pos] ++ Sys2Proof.Machine.balancedTrits 5 op1 ++
      Sys2Proof.Machine.balancedTrits 6 op2 ∧
    ∃ t v, exec (.pollMouse op1 op2) s = .next t ∧ WritesRegister (ri op1) v s t ∧ inWordRange v ∧
      (s.build.mouseSelect.lookup op2 = some .x → v = clamp s.portMx ∧ (inWordRange s.portMx → v = s.portMx)) ∧
      (s.build.mouseSelect.lookup op2 = some .y → v = clamp s.portMy ∧ (inWordRange s.portMy → v = s.portMy)) ∧
      (s.build.mouseSelect.lookup op2 = some .click →
        v = clamp s.portClick ∧ (inWordRange s.portClick → v = s.portClick)) ∧
      (s.build.mouseSelect.lookup op2 = none → v = 0) ∧
      (s.build.mouseSelect = refMouseSelect →
        (op2 = 0 → v = clamp s.portMx) ∧ (op2 = 1 → v = clamp s.portMy) ∧ (op2 = 2 → v = clamp s.portClick) ∧
          (op2 ≠ 0 → op2 ≠ 1 → op2 ≠ 2 → v = 0))

/-- 45_io_instructions.md section on POLL_KEY (R140, decision D18; the codes that are down are a list, log entry 8). -/
def Obligations.PollKeyReadsKey : Prop :=
  ∀ (op1 op2 : Int) (s : State),
    encode (.pollKey op1 op2) = [.neg, .neg, .pos, .pos] ++ Sys2Proof.Machine.balancedTrits 5 op1 ++
      Sys2Proof.Machine.balancedTrits 6 op2 ∧
      ∃ t v, exec (.pollKey op1 op2) s = .next t ∧ WritesRegister (ri op1) v s t ∧
      (op2 ∈ s.heldKeys → v = 13) ∧ (op2 ∉ s.heldKeys → v = 0)

/-! The step -/

/-- 41_step_cycle.md section on `step()` (R100, R102): where the fifteen cells at `pc` decode to an instruction, the
transition of a running machine is that instruction's; the schedule is the model's own (log entry 7). -/
def Obligations.StepRunsDecodedInstruction : Prop :=
  ∀ (s : State) (i : Instr), s.halted = false → decode (s.readTrits s.pc 15) = .ok i →
    (s.schedule = [] → step s = exec i s) ∧
      ∀ ms, s.schedule = .cpuStep :: ms → step s = exec i { s with schedule := ms }

/-- 41_step_cycle.md R101: a halted machine is frozen, however many times `step()` is called. -/
def Obligations.HaltedMachineIsFrozen : Prop :=
  ∀ s : State, s.halted = true →
    (s.schedule = [] → ∀ k : Nat, Host.Core.run Sys2Proof.core k s = .next s) ∧
      ∀ ms, s.schedule = .cpuStep :: ms → step s = .next { s with schedule := ms }

/-- 41_step_cycle.md (R106) and 60_exceptions.md section 1 (R145): every run of every length from every state goes on;
no transition faults or is refused. -/
def Obligations.NoRunEverStops : Prop :=
  ∀ (k : Nat) (s : State), ∃ t : State, Host.Core.run Sys2Proof.core k s = .next t

/-- 10_state.md section 3 (R28) and 20_memory.md sections 3 and 4: a fetch from cells wholly outside memory is a HALT.
That missing cells read 0 at negative addresses too is the spec's decision D11, that such a fetch is performed at all
is D26 (log entry 14), and that `pc` is 15 more after the HALT is D9 (log entry 13). -/
def Obligations.FetchOutsideMemoryHalts : Prop :=
  ∀ s : State, s.schedule = [] → s.halted = false → (s.pc ≥ (s.build.memSize : Int) ∨ s.pc + 15 ≤ 0) →
    step s = .next { s with halted := true, pc := s.pc + 15 }

/-- 30_encoding.md section 4 (R69): trits that an instruction ignores have no effect, whatever stands in them. -/
def Obligations.IgnoredTritsHaveNoEffect : Prop :=
  ∀ s : State,
    (∀ a b c d : Int, exec (.halt a b) s = exec (.halt c d) s) ∧
    (∀ a b c d : Int, exec (.rect a b) s = exec (.rect c d) s) ∧
    (∀ o a b p c d : Int, exec (.unknownOpcode o a b) s = exec (.unknownOpcode p c d) s) ∧
    (∀ a c b : Int, exec (.jmp a b) s = exec (.jmp c b) s) ∧
    (∀ a c b : Int, exec (.call a b) s = exec (.call c b) s) ∧
    (∀ a b c k : Int, exec (.neg (a + 27 * k) c) s = exec (.neg a b) s) ∧
    (∀ a b k m : Int, exec (.add (a + 27 * k) (b + 27 * m)) s = exec (.add a b) s) ∧
    (∀ a b k m : Int, exec (.sub (a + 27 * k) (b + 27 * m)) s = exec (.sub a b) s) ∧
    (∀ a b k m : Int, exec (.mul (a + 27 * k) (b + 27 * m)) s = exec (.mul a b) s) ∧
    (∀ a b k m : Int, exec (.div (a + 27 * k) (b + 27 * m)) s = exec (.div a b) s) ∧
    (∀ a b k m : Int, exec (.tri (a + 27 * k) (b + 27 * m)) s = exec (.tri a b) s) ∧
    (∀ a b k m : Int, exec (.cpy (a + 27 * k) (b + 27 * m)) s = exec (.cpy a b) s) ∧
    (∀ a b k : Int, exec (.set (a + 27 * k) b) s = exec (.set a b) s) ∧
    (∀ a b k : Int, exec (.brn (a + 27 * k) b) s = exec (.brn a b) s) ∧
    (∀ a b k : Int, exec (.brp (a + 27 * k) b) s = exec (.brp a b) s) ∧
    (∀ a b k : Int, exec (.pollMouse (a + 27 * k) b) s = exec (.pollMouse a b) s) ∧
    (∀ a b k : Int, exec (.pollKey (a + 27 * k) b) s = exec (.pollKey a b) s)

/-! Whole-machine rules -/

/-- The model's invariant (10_state.md sections 2 and 5; 20_memory.md section 1) is kept by every transition of every
agent, from every state that meets it. -/
def Obligations.EveryStepKeepsInvariant : Prop :=
  ∀ s t : State, s.Inv → step s = .next t → t.Inv

/-- The invariant holds at reset, and at the power-on of every build. -/
def Obligations.ResetMeetsInvariant : Prop := State.reset.Inv ∧ ∀ b : Build, (State.powerOn b).Inv

/-- 10_state.md section 4 (R29): only a HALT that the CPU runs takes the machine to Halted, and only the launch of an
image that exists takes it out. -/
def Obligations.OnlyHaltAndLaunchChangeHalted : Prop :=
  ∀ s t : State, step s = .next t →
    (s.halted = false → t.halted = true →
      (s.schedule = [] ∨ ∃ ms, s.schedule = .cpuStep :: ms) ∧ s.memRead s.pc 4 = 0) ∧
    (s.halted = true → t.halted = false → ∃ im ms, s.schedule = .launch (some im) :: ms)

/-- 20_memory.md section 5 (R47): an instruction other than CALL and RECT leaves memory as it was. -/
def Obligations.OnlyCallAndRectWriteMemory : Prop :=
  ∀ (i : Instr) (s t : State), exec i s = .next t → writesMemory i = false → t.mem = s.mem ∧ SameMemory s t

/-- 10_state.md section 2 (R24): an instruction changes no register but the one it names or, for CALL, the stack
pointer. -/
def Obligations.OnlyTheDestinationChanges : Prop :=
  ∀ (i : Instr) (s t : State) (r : Reg), exec i s = .next t → destination s.build i ≠ some r →
    t.readReg r = s.readReg r

/-- 60_exceptions.md section 3 (R157) and 20_memory.md section 5 (R48): no instruction writes a port; and none touches
the model's own fields (log entries 2 and 7). -/
def Obligations.NoInstructionWritesAPort : Prop :=
  ∀ (i : Instr) (s t : State), exec i s = .next t → SameSurroundings s t

/-- 45_io_instructions.md section 1 (R135) and 41_step_cycle.md (R108): an instruction other than the two POLLs does the
same whatever the ports hold. -/
def Obligations.PortsAreUnseenWithoutPolls : Prop :=
  ∀ (i : Instr) (s t : State) (mx my click : Int) (held : List Int), readsPort i = false → exec i s = .next t →
    exec i (s.withPorts mx my click held) = .next (t.withPorts mx my click held)

/-- 10_state.md section 3 (R27) and 70_reset_and_hazards.md section 3 (R174): with BOOT_ADDR a multiple of 15, `pc`
stays one as long as the fetched transfers have targets that are. -/
def Obligations.AlignedPcStaysAligned : Prop :=
  ∀ s t : State, s.build.bootAddr % 15 = 0 → s.pc % 15 = 0 →
    (∀ target, transferTarget s.fetch = some target → target % 15 = 0) → step s = .next t → t.pc % 15 = 0

/-- 44_control_transfer.md section on reach (R132): after a CPU step, `pc` is 15 more or an operand-2 value. For a step
that runs a HALT, `pc` being 15 more is the spec's decision D9 (log entry 13). -/
def Obligations.TransfersReachSixTrits : Prop :=
  ∀ s t : State, s.schedule = [] → s.halted = false → step s = .next t →
    t.pc = s.pc + 15 ∨ (-364 ≤ t.pc ∧ t.pc ≤ 364)

/-- 20_memory.md section 8 (R56): the fifteen trits a CALL pushes onto its own target are what the very next fetch
decodes. What CALL pushes and where (pre-decrement, A + 15 at the new pointer) is the spec's decision D12 (R130, log
entry 12). -/
def Obligations.PushIsSeenByTheNextFetch : Prop :=
  ∀ (op1 op2 : Int) (s : State), s.mem.wf → s.build.callPushLen = 15 →
    clamp (s.readReg s.build.spIndex - 15) = op2 → 0 ≤ op2 → op2 + 15 ≤ (s.build.memSize : Int) →
    ∃ t, exec (.call op1 op2) s = .next t ∧ encode t.fetch = Sys2Proof.Machine.balancedTrits 15 (s.pc + 15)

/-- 00_scope.md section 3 (R7): no transition changes the parameters of the build (log entry 2). -/
def Obligations.NoStepChangesTheBuild : Prop :=
  ∀ s t : State, step s = .next t → t.build = s.build

/-! Reset, loading and the agents around the core -/

/-- 10_state.md section 6 (R36) and 70_reset_and_hazards.md section 1 (R165, the spec's decision D19, log entry 5): the
power-on state of every build, and the reset state, which is REF's (log entry 2); the port values and the schedule are
the model's choice (log entries 6 and 7). -/
def Obligations.ResetIsPowerOn : Prop :=
  (∀ b : Build, (∀ r : Reg, (State.powerOn b).readReg r = 0) ∧ (∀ a : Int, (State.powerOn b).readCell a = .zero) ∧
    (State.powerOn b).pc = (b.bootAddr : Int) ∧ (State.powerOn b).halted = false ∧ (State.powerOn b).build = b ∧
    (State.powerOn b).portMx = 0 ∧ (State.powerOn b).portMy = 0 ∧ (State.powerOn b).portClick = 0 ∧
    (State.powerOn b).heldKeys = [] ∧ (State.powerOn b).schedule = []) ∧
    State.reset = State.powerOn refBuild ∧ refBuild.Valid

/-- 70_reset_and_hazards.md section 1 (R165, the spec's decision D19, log entry 5): stepped before any launch, a
machine of any build halts at once; that `pc` is then BOOT_ADDR + 15 is the spec's decision D9 (log entry 13). -/
def Obligations.FirstStepAfterPowerOnHalts : Prop :=
  ∀ b : Build, step (State.powerOn b) =
    .next { State.powerOn b with halted := true, pc := (b.bootAddr : Int) + 15 }

/-- 70_reset_and_hazards.md section 1 (R167, R169; decisions D20, D22, D30) and 10_state.md section 6: what the launch
of an image leaves, part by part. -/
def Obligations.LaunchResetsTheMachine : Prop :=
  ∀ (s : State) (im : List ImageRecord) (ms : List HostMove), s.schedule = .launch (some im) :: ms →
    ∃ t, step s = .next t ∧ (∀ r : Reg, t.readReg r = 0) ∧ t.pc = (s.build.bootAddr : Int) ∧ t.halted = false ∧
      t.portMx = s.portMx ∧ t.portMy = s.portMy ∧ t.portClick = s.portClick ∧ t.heldKeys = s.heldKeys ∧
      t.build = s.build ∧ t.schedule = ms ∧
      (∀ a : Int, ¬((s.build.bootAddr : Int) ≤ a ∧ a < (s.build.bootAddr : Int) + 15 * (im.length : Int)) →
        (((s.build.clearLo : Int) ≤ a ∧ a < (s.build.clearHi : Int)) → t.readCell a = .zero) ∧
        (¬((s.build.clearLo : Int) ≤ a ∧ a < (s.build.clearHi : Int)) → t.readCell a = s.readCell a))

/-- 70_reset_and_hazards.md section 1 (R167, R170, the spec's decision D22) and 30_encoding.md section 5 (R74): after
the launch of any image, each cell of a record's slot that memory has holds its trit of the record's three fields, each
truncated to its trits, whether or not the image fits; a cell that memory does not have reads 0 (D11, log entry 14);
and a record whose slot is in memory is what a fetch there decodes. -/
def Obligations.LaunchedRecordsAreFetched : Prop :=
  ∀ (s : State) (im : List ImageRecord) (k : Nat) (r : ImageRecord), s.mem.wf → im[k]? = some r →
    (∀ j : Nat, j < 15 → s.inMemory ((s.build.bootAddr : Int) + 15 * (k : Int) + (j : Int)) = true →
      some ((s.launch (some im)).readCell ((s.build.bootAddr : Int) + 15 * (k : Int) + (j : Int))) =
        (encodeFields r.opcode r.arg1 r.arg2)[j]?) ∧
    (∀ j : Nat, s.inMemory ((s.build.bootAddr : Int) + 15 * (k : Int) + (j : Int)) = false →
      (s.launch (some im)).readCell ((s.build.bootAddr : Int) + 15 * (k : Int) + (j : Int)) = .zero) ∧
    (s.build.bootAddr + 15 * (k + 1) ≤ s.build.memSize →
      ((s.launch (some im)).jump ((s.build.bootAddr : Int) + 15 * (k : Int))).fetch =
        decodeFields (bal 4 r.opcode) (bal 5 r.arg1) (bal 6 r.arg2))

/-- 70_reset_and_hazards.md R168: the launch of a missing image changes nothing. -/
def Obligations.MissingImageChangesNothing : Prop :=
  ∀ s : State, s.launch none = s ∧
    ∀ ms, s.schedule = .launch none :: ms → step s = .next { s with schedule := ms }

/-- 60_exceptions.md section 3 (R157) and 10_state.md section 5 (R33): a bridge move gives one port its value and
touches nothing else of the machine. -/
def Obligations.BridgeWritesOnePort : Prop :=
  ∀ (s : State) (w : PortWrite) (ms : List HostMove), s.schedule = .bridge w :: ms →
    ∃ t, step s = .next t ∧ t.schedule = ms ∧ t.x = s.x ∧ t.pc = s.pc ∧ t.halted = s.halted ∧ t.mem = s.mem ∧
      t.build = s.build ∧
      (∀ v, w = .mouseX v → t.portMx = v ∧ t.portMy = s.portMy ∧ t.portClick = s.portClick ∧ t.heldKeys = s.heldKeys) ∧
      (∀ v, w = .mouseY v → t.portMy = v ∧ t.portMx = s.portMx ∧ t.portClick = s.portClick ∧ t.heldKeys = s.heldKeys) ∧
      (∀ v, w = .click v → t.portClick = v ∧ t.portMx = s.portMx ∧ t.portMy = s.portMy ∧ t.heldKeys = s.heldKeys) ∧
      (∀ c d, w = .key c d →
        t.portMx = s.portMx ∧ t.portMy = s.portMy ∧ t.portClick = s.portClick ∧ t.keyHeld c = d ∧
          ∀ k, k ≠ c → t.keyHeld k = s.keyHeld k)

/-- 60_exceptions.md section 3 (R158): the renderer changes nothing. -/
def Obligations.RendererChangesNothing : Prop :=
  ∀ (s : State) (ms : List HostMove), s.schedule = .render :: ms → step s = .next { s with schedule := ms }

/-- 30_encoding.md section 5 (R72 to R74, R76; the spec's decision D21, log entry 17): a line whose first token is one
of the sixteen mnemonics, in any case, emits one record with that mnemonic's opcode number and its second and third
tokens as arguments, by position; a line with any other first token, or with none, emits nothing; and an image is its
lines' records in order. What the tokens of a text are is AssemblerReadsTokens. -/
def Obligations.AssemblerEmitsInstructions : Prop :=
  ∀ (b : Build) (line : List Char),
    (∀ name args, tokensFrom [] (stripComment b.commentMarker line) = name :: args →
      (∀ m ∈ ([("HALT", 0), ("ADD", 1), ("SUB", 2), ("MUL", 3), ("DIV", 4), ("NEG", 6), ("SET", 11), ("CPY", 12),
          ("JMP", 20), ("BRN", 21), ("BRP", 22), ("TRI", 23), ("CALL", 24), ("RECT", 30), ("POLL_MOUSE", 31),
          ("POLL_KEY", 32)] : List (String × Int)),
        name.map Char.toUpper = m.1.toList →
          assembleLine b line = some { opcode := m.2, arg1 := argumentAt args 0, arg2 := argumentAt args 1 }) ∧
      ((∀ m ∈ (["HALT", "ADD", "SUB", "MUL", "DIV", "NEG", "SET", "CPY", "JMP", "BRN", "BRP", "TRI", "CALL", "RECT",
          "POLL_MOUSE", "POLL_KEY"] : List String), name.map Char.toUpper ≠ m.toList) →
        assembleLine b line = none)) ∧
    (tokensFrom [] (stripComment b.commentMarker line) = [] → assembleLine b line = none) ∧
    ∀ before after : List (List Char),
      assemble b (before ++ line :: after) =
        assemble b before ++ ((assembleLine b line).toList ++ assemble b after)

/-- 95_test_vectors.md section 1.2: Scenario A's text, with a comment, a label and a mixed-case mnemonic added,
assembles to its four records. -/
def Obligations.ScenarioAAssembles : Prop :=
  assemble refBuild ["SET 0 5 ; five".toList, "start:".toList, "set 1 3".toList, "".toList, "  ADD 0 1".toList,
      "Halt".toList] =
    [{ opcode := 11, arg1 := 0, arg2 := 5 }, { opcode := 11, arg1 := 1, arg2 := 3 },
      { opcode := 1, arg1 := 0, arg2 := 1 }, { opcode := 0, arg1 := 0, arg2 := 0 }]

/-! The host's numbering -/

/-- The host's number of an instruction, placed where the next step fetches, runs as the very next transition (log
entries 9 and 10). -/
def Obligations.PlacedWordRunsNext : Prop :=
  ∀ (s : State) (nbits w : Nat) (i : Instr), s.mem.wf → 15 ≤ s.build.memSize → decodeTableWord nbits w = some i →
    step (s.withFetchWord nbits w) = exec i (s.withFetchWord nbits w)

/-! Statements added after the first review -/

/-- 30_encoding.md section 3, the opcode map (R66; the packing of the fields is the spec's decision D5, log entry 14):
for each of its sixteen rows, the row's four opcode trits followed by any five and any six trits decode to that
instruction with those trits' values as operands; four opcode trits of no row are an unknown opcode (section 4, R68).
-/
def Obligations.OpcodeMapDecodes : Prop :=
  ∀ a b : List Trit, a.length = 5 → b.length = 6 →
    decode ([.zero, .zero, .zero, .zero] ++ a ++ b) = .ok (.halt (tritsValue a) (tritsValue b)) ∧
    decode ([.pos, .zero, .zero, .zero] ++ a ++ b) = .ok (.add (tritsValue a) (tritsValue b)) ∧
    decode ([.neg, .pos, .zero, .zero] ++ a ++ b) = .ok (.sub (tritsValue a) (tritsValue b)) ∧
    decode ([.zero, .pos, .zero, .zero] ++ a ++ b) = .ok (.mul (tritsValue a) (tritsValue b)) ∧
    decode ([.pos, .pos, .zero, .zero] ++ a ++ b) = .ok (.div (tritsValue a) (tritsValue b)) ∧
    decode ([.zero, .neg, .pos, .zero] ++ a ++ b) = .ok (.neg (tritsValue a) (tritsValue b)) ∧
    decode ([.neg, .pos, .pos, .zero] ++ a ++ b) = .ok (.set (tritsValue a) (tritsValue b)) ∧
    decode ([.zero, .pos, .pos, .zero] ++ a ++ b) = .ok (.cpy (tritsValue a) (tritsValue b)) ∧
    decode ([.neg, .pos, .neg, .pos] ++ a ++ b) = .ok (.jmp (tritsValue a) (tritsValue b)) ∧
    decode ([.zero, .pos, .neg, .pos] ++ a ++ b) = .ok (.brn (tritsValue a) (tritsValue b)) ∧
    decode ([.pos, .pos, .neg, .pos] ++ a ++ b) = .ok (.brp (tritsValue a) (tritsValue b)) ∧
    decode ([.neg, .neg, .zero, .pos] ++ a ++ b) = .ok (.tri (tritsValue a) (tritsValue b)) ∧
    decode ([.zero, .neg, .zero, .pos] ++ a ++ b) = .ok (.call (tritsValue a) (tritsValue b)) ∧
    decode ([.zero, .pos, .zero, .pos] ++ a ++ b) = .ok (.rect (tritsValue a) (tritsValue b)) ∧
    decode ([.pos, .pos, .zero, .pos] ++ a ++ b) = .ok (.pollMouse (tritsValue a) (tritsValue b)) ∧
    decode ([.neg, .neg, .pos, .pos] ++ a ++ b) = .ok (.pollKey (tritsValue a) (tritsValue b)) ∧
    ∀ o : List Trit, o.length = 4 →
      o ∉ ([
        [.zero, .zero, .zero, .zero],
        [.pos, .zero, .zero, .zero],
        [.neg, .pos, .zero, .zero],
        [.zero, .pos, .zero, .zero],
        [.pos, .pos, .zero, .zero],
        [.zero, .neg, .pos, .zero],
        [.neg, .pos, .pos, .zero],
        [.zero, .pos, .pos, .zero],
        [.neg, .pos, .neg, .pos],
        [.zero, .pos, .neg, .pos],
        [.pos, .pos, .neg, .pos],
        [.neg, .neg, .zero, .pos],
        [.zero, .neg, .zero, .pos],
        [.zero, .pos, .zero, .pos],
        [.pos, .pos, .zero, .pos],
        [.neg, .neg, .pos, .pos]] : List (List Trit)) →
      decode (o ++ a ++ b) = .ok (.unknownOpcode (tritsValue o) (tritsValue a) (tritsValue b))

/-- 30_encoding.md section 5 (R72, the spec's decision D21; which characters are whitespace is log entry 17): a comment
runs from the first place where the marker stands; the tokens of a text are its maximal runs of other characters
between whitespace; an argument is 0 where its token is missing or no decimal integer, and else the integer it writes.
-/
def Obligations.AssemblerReadsTokens : Prop :=
  (∀ marker pre post : List Char, marker ≠ [] →
    (∀ k : Nat, k < pre.length → ¬marker <+: (pre ++ marker ++ post).drop k) →
    stripComment marker (pre ++ marker ++ post) = pre) ∧
  (∀ marker text : List Char, (∀ k : Nat, k < text.length → ¬marker <+: text.drop k) →
    stripComment marker text = text) ∧
  (∀ (lead : List Char) (words : List (List Char × List Char)),
    (∀ c ∈ lead, c.isWhitespace = true) →
    (∀ w ∈ words, w.1 ≠ [] ∧ (∀ c ∈ w.1, c.isWhitespace = false) ∧ ∀ c ∈ w.2, c.isWhitespace = true) →
    (∀ w ∈ words.dropLast, w.2 ≠ []) →
    tokensFrom [] (lead ++ words.flatMap (fun w => w.1 ++ w.2)) = words.map (fun w => w.1)) ∧
  (∀ (tokens : List (List Char)) (k : Nat), tokens[k]? = none → argumentAt tokens k = 0) ∧
  (∀ (tokens : List (List Char)) (k : Nat) (ds : List Nat), ds ≠ [] → (∀ d ∈ ds, d < 10) →
    (tokens[k]? = some (ds.map Nat.digitChar) → argumentAt tokens k = (Nat.ofDigits 10 ds.reverse : Int)) ∧
    (tokens[k]? = some ('-' :: ds.map Nat.digitChar) → argumentAt tokens k = -(Nat.ofDigits 10 ds.reverse : Int))) ∧
  (∀ (tokens : List (List Char)) (k : Nat) (t u : List Char) (c : Char), c.isDigit = false →
    (tokens[k]? = some (t ++ c :: u) → t ≠ [] → argumentAt tokens k = 0) ∧
    (tokens[k]? = some (c :: u) → c ≠ '-' → argumentAt tokens k = 0)) ∧
  (∀ (tokens : List (List Char)) (k : Nat), tokens[k]? = some ['-'] → argumentAt tokens k = 0)

/-- 00_scope.md section 3 (R7, R8; the reading of the program region is log entry 20) and 70_reset_and_hazards.md
section 1 (R167): in a valid build that holds the image, its launch leaves every pixel of the framebuffer 0, and every
cell of the cleared window after the image. -/
def Obligations.LaunchClearsTheFramebuffer : Prop :=
  ∀ (s : State) (im : List ImageRecord), s.build.Valid → s.build.HoldsImage im.length →
    (∀ a : Int, (s.build.fbBase : Int) ≤ a → a < (s.build.fbEnd : Int) → (s.launch (some im)).readCell a = .zero) ∧
    (∀ p q : Int, 0 ≤ p → p < (s.build.fbWidth : Int) → 0 ≤ q → q < (s.build.fbHeight : Int) →
      (s.launch (some im)).pixel p q = (0, 0, 0)) ∧
    (∀ a : Int, (s.build.imageEnd im.length : Int) ≤ a → a < (s.build.clearHi : Int) →
      (s.launch (some im)).readCell a = .zero)
end

