-- ==== Sys2Proof/Laws/Assembler.lean ====
section
/-! SUPPORT. What the assembler's text operations do on one piece of a line: a comment, a run of whitespace, a token, a
decimal. -/

namespace Sys2Proof.Machine

/-- A comment starts where the marker stands (30_encoding.md R72). -/
theorem stripComment_of_marker {marker : List Char} (hm : marker ≠ []) (post : List Char) :
    stripComment marker (marker ++ post) = [] := by
  cases marker with
  | nil => exact absurd rfl hm
  | cons c cs =>
    have h : (c :: cs).isPrefixOf (c :: (cs ++ post)) = true :=
      List.isPrefixOf_iff_prefix.2 (List.prefix_append (c :: cs) post)
    rw [List.cons_append, stripComment, if_pos h]

/-- A character at which the marker does not stand is kept. -/
theorem stripComment_cons {marker : List Char} {c : Char} {cs : List Char} (h : ¬marker <+: c :: cs) :
    stripComment marker (c :: cs) = c :: stripComment marker cs := by
  have h' : ¬marker.isPrefixOf (c :: cs) = true := fun e => h (List.isPrefixOf_iff_prefix.1 e)
  rw [stripComment, if_neg h']

/-- Whitespace before a token is skipped. -/
theorem tokensFrom_blank {gap : List Char} (h : ∀ c ∈ gap, c.isWhitespace = true) (cs : List Char) :
    tokensFrom [] (gap ++ cs) = tokensFrom [] cs := by
  induction gap with
  | nil => rfl
  | cons c gap ih =>
    rw [List.cons_append, tokensFrom, if_pos (h c (by simp))]
    exact ih (fun d hd => h d (by simp [hd]))

/-- Characters that are no whitespace join the token being read. -/
theorem tokensFrom_word {word : List Char} (h : ∀ c ∈ word, c.isWhitespace = false) (cur cs : List Char) :
    tokensFrom cur (word ++ cs) = tokensFrom (word.reverse ++ cur) cs := by
  induction word generalizing cur with
  | nil => rfl
  | cons c word ih =>
    rw [List.cons_append, tokensFrom, if_neg (by rw [h c (by simp)]; decide),
      ih (fun d hd => h d (by simp [hd])), List.reverse_cons, List.append_assoc]
    rfl

/-- Whitespace ends the token being read. -/
theorem tokensFrom_gap {cur gap : List Char} (hc : cur ≠ []) (hg : gap ≠ []) (h : ∀ c ∈ gap, c.isWhitespace = true)
    (cs : List Char) : tokensFrom cur (gap ++ cs) = cur.reverse :: tokensFrom [] cs := by
  cases gap with
  | nil => exact absurd rfl hg
  | cons c gap =>
    have hn : ¬cur.isEmpty = true := fun e => hc (List.isEmpty_iff.1 e)
    rw [List.cons_append, tokensFrom, if_pos (h c (by simp)), if_neg hn,
      tokensFrom_blank (fun d hd => h d (by simp [hd]))]

/-- The end of the text ends the token being read. -/
theorem tokensFrom_end {cur : List Char} (hc : cur ≠ []) : tokensFrom cur [] = [cur.reverse] := by
  have hn : ¬cur.isEmpty = true := fun e => hc (List.isEmpty_iff.1 e)
  rw [tokensFrom, if_neg hn]

/-- A digit's character is one, and stands for the digit. -/
theorem digitChar_spec {d : Nat} (h : d < 10) :
    (Nat.digitChar d).isDigit = true ∧ (Nat.digitChar d).toNat - '0'.toNat = d ∧ Nat.digitChar d ≠ '-' := by
  revert h; revert d; decide

/-- A text with a character that is no digit is no run of digits. -/
theorem parseDigits_of_not_digit {cs : List Char} {c : Char} (hc : c ∈ cs) (h : c.isDigit = false) :
    parseDigits cs = none := by
  have ha : ¬cs.all Char.isDigit = true := fun e => by
    have := List.all_eq_true.1 e c hc
    rw [h] at this; cases this
  unfold parseDigits
  rw [if_neg ha, ite_self]

end Sys2Proof.Machine
end

