-- ==== Sys2Proof/Laws/Codec.lean ====
section
/-! SUPPORT. The laws of the codec: what `digit`, `balancedTrits`, `tritsValue`, `bal`, `clamp` and `ri` are. -/

namespace Sys2Proof.Machine

/-- 3^n is one more than twice H(n) (00_scope.md R10). -/
theorem pow_eq_two_maxValue (n : Nat) : ((3 ^ n : Nat) : Int) = 2 * maxValue n + 1 := by
  have h : (3 ^ n) % 2 = 1 := by
    induction n with
    | zero => rfl
    | succ n ih => rw [pow_succ]; omega
  unfold maxValue
  have : 1 ≤ 3 ^ n := Nat.one_le_pow _ _ (by decide)
  omega

theorem maxValue_nonneg (n : Nat) : 0 ≤ maxValue n := by
  unfold maxValue; exact Int.natCast_nonneg _

theorem maxValue_succ (n : Nat) : maxValue (n + 1) = 3 * maxValue n + 1 := by
  have h1 := pow_eq_two_maxValue n
  have h2 := pow_eq_two_maxValue (n + 1)
  have h3 : ((3 ^ (n + 1) : Nat) : Int) = 3 * ((3 ^ n : Nat) : Int) := by push_cast; ring
  omega

@[simp] theorem maxValue_zero : maxValue 0 = 0 := rfl

theorem maxValue_fifty : maxValue 50 = 358948993845926294385124 := by decide

/-- `bal` stays in -H(n)..H(n). -/
theorem bal_range (n : Nat) (v : Int) : -maxValue n ≤ bal n v ∧ bal n v ≤ maxValue n := by
  have h := pow_eq_two_maxValue n
  have h0 := maxValue_nonneg n
  have h1 := Int.emod_nonneg v (b := ((3 ^ n : Nat) : Int)) (by omega)
  have h2 := Int.emod_lt_of_pos v (b := ((3 ^ n : Nat) : Int)) (by omega)
  unfold bal
  split <;> omega

/-- `bal n v` is v plus a multiple of 3^n. -/
theorem bal_eq_add (n : Nat) (v : Int) : ∃ k : Int, bal n v = v + ((3 ^ n : Nat) : Int) * k := by
  have h := Int.emod_add_mul_ediv v ((3 ^ n : Nat) : Int)
  unfold bal
  split
  · exact ⟨-(v / ((3 ^ n : Nat) : Int)) - 1, by linarith⟩
  · exact ⟨-(v / ((3 ^ n : Nat) : Int)), by linarith⟩

/-- Two integers of -H(n)..H(n) that differ by a multiple of 3^n are equal: the residue system is complete
(00_scope.md R10). -/
theorem bal_unique {n : Nat} {a b k : Int} (ha : -maxValue n ≤ a ∧ a ≤ maxValue n)
    (hb : -maxValue n ≤ b ∧ b ≤ maxValue n) (h : a = b + ((3 ^ n : Nat) : Int) * k) : a = b := by
  have hp := pow_eq_two_maxValue n
  have h0 := maxValue_nonneg n
  have hk : k = 0 := by
    rcases lt_trichotomy k 0 with hk | hk | hk
    · have : ((3 ^ n : Nat) : Int) * k ≤ ((3 ^ n : Nat) : Int) * (-1) :=
        Int.mul_le_mul_of_nonneg_left (by omega) (by omega)
      omega
    · exact hk
    · have : ((3 ^ n : Nat) : Int) * 1 ≤ ((3 ^ n : Nat) : Int) * k :=
        Int.mul_le_mul_of_nonneg_left (by omega) (by omega)
      omega
  subst hk
  omega

theorem bal_eq_of_congr {n : Nat} {v r k : Int} (hr : -maxValue n ≤ r ∧ r ≤ maxValue n)
    (h : r = v + ((3 ^ n : Nat) : Int) * k) : bal n v = r := by
  obtain ⟨j, hj⟩ := bal_eq_add n v
  exact bal_unique (k := j - k) (bal_range n v) hr (by rw [hj, h]; ring)

/-- `bal` is the identity on its range. -/
theorem bal_eq_self {n : Nat} {v : Int} (h : -maxValue n ≤ v ∧ v ≤ maxValue n) : bal n v = v :=
  bal_eq_of_congr (k := 0) h (by ring)

theorem bal_idem (n : Nat) (v : Int) : bal n (bal n v) = bal n v := bal_eq_self (bal_range n v)

/-- `bal` does not see multiples of 3^n. -/
theorem bal_add_mul (n : Nat) (v k : Int) : bal n (v + ((3 ^ n : Nat) : Int) * k) = bal n v := by
  obtain ⟨j, hj⟩ := bal_eq_add n v
  exact bal_eq_of_congr (k := j - k) (bal_range n v) (by rw [hj]; ring)

/-- The digit is congruent to the value modulo 3 (40_codec.md R89). -/
theorem digit_congr (v : Int) : (v - (digit v).toInt) % 3 = 0 := by
  unfold digit
  split
  · simp only [Trit.toInt]; omega
  · split <;> simp only [Trit.toInt] <;> omega

theorem toInt_range (t : Trit) : -1 ≤ t.toInt ∧ t.toInt ≤ 1 := by cases t <;> decide

theorem toInt_injective {t u : Trit} (h : t.toInt = u.toInt) : t = u := by
  revert h; cases t <;> cases u <;> decide

theorem digit_toInt_add_mul (t : Trit) (v : Int) : digit (t.toInt + 3 * v) = t := by
  have hn : Trit.neg.toInt = -1 := rfl
  have hz : Trit.zero.toInt = 0 := rfl
  have hp : Trit.pos.toInt = 1 := rfl
  unfold digit
  cases t
  · rw [if_pos (by omega)]
  · rw [if_neg (by omega), if_pos (by omega)]
  · rw [if_neg (by omega), if_neg (by omega)]

theorem digit_zero : digit 0 = .zero := by decide

@[simp] theorem balancedTrits_length (n : Nat) (v : Int) : (balancedTrits n v).length = n := by
  induction n generalizing v with
  | zero => rfl
  | succ n ih => simp [balancedTrits, ih]

/-- A trit string's value is in -H(n)..H(n) (40_codec.md R86). -/
theorem tritsValue_range (ts : List Trit) :
    -maxValue ts.length ≤ tritsValue ts ∧ tritsValue ts ≤ maxValue ts.length := by
  induction ts with
  | nil => simp [tritsValue]
  | cons t ts ih =>
    have := toInt_range t
    simp only [tritsValue, List.length_cons, maxValue_succ]
    omega

/-- Decoding what encode emitted gives the value plus a multiple of 3^n: the residue is discarded (40_codec.md R90). -/
theorem tritsValue_balancedTrits_congr (n : Nat) (v : Int) :
    ∃ k : Int, tritsValue (balancedTrits n v) = v + ((3 ^ n : Nat) : Int) * k := by
  induction n generalizing v with
  | zero => exact ⟨-v, by simp [balancedTrits, tritsValue]⟩
  | succ n ih =>
    obtain ⟨k, hk⟩ := ih ((v - (digit v).toInt) / 3)
    refine ⟨k, ?_⟩
    have hd := digit_congr v
    have h3 : 3 * ((v - (digit v).toInt) / 3) = v - (digit v).toInt := by omega
    simp only [balancedTrits, tritsValue, hk]
    push_cast
    rw [pow_succ]
    linarith

/-- Truncation (40_codec.md R90): decoding what encode emitted gives `bal`. -/
theorem tritsValue_balancedTrits (n : Nat) (v : Int) : tritsValue (balancedTrits n v) = bal n v := by
  obtain ⟨k, hk⟩ := tritsValue_balancedTrits_congr n v
  have hr := tritsValue_range (balancedTrits n v)
  rw [balancedTrits_length] at hr
  exact (bal_eq_of_congr hr hk).symm

/-- The other half of the round trip (40_codec.md R91): encoding a decoded string gives the string. -/
theorem balancedTrits_tritsValue (ts : List Trit) : balancedTrits ts.length (tritsValue ts) = ts := by
  induction ts with
  | nil => rfl
  | cons t ts ih =>
    have h : (t.toInt + 3 * tritsValue ts - t.toInt) / 3 = tritsValue ts := by omega
    simp only [List.length_cons, balancedTrits, tritsValue, digit_toInt_add_mul, h, ih]

/-- Encode sees only the residue modulo 3^n. -/
theorem balancedTrits_bal (n : Nat) (v : Int) : balancedTrits n (bal n v) = balancedTrits n v := by
  have h := balancedTrits_tritsValue (balancedTrits n v)
  rwa [balancedTrits_length, tritsValue_balancedTrits] at h

theorem tritsValue_append (ts us : List Trit) :
    tritsValue (ts ++ us) = tritsValue ts + ((3 ^ ts.length : Nat) : Int) * tritsValue us := by
  induction ts with
  | nil => simp [tritsValue]
  | cons t ts ih =>
    simp only [List.cons_append, tritsValue, ih, List.length_cons]
    push_cast
    rw [pow_succ]
    ring

theorem tritsValue_replicate_zero (n : Nat) : tritsValue (List.replicate n .zero) = 0 := by
  induction n with
  | zero => rfl
  | succ n ih => simp [List.replicate_succ, tritsValue, Trit.toInt, ih]

theorem clamp_range (v : Int) : -maxValue 50 ≤ clamp v ∧ clamp v ≤ maxValue 50 := bal_range 50 v

theorem clamp_eq_self {v : Int} (h : -maxValue 50 ≤ v ∧ v ≤ maxValue 50) : clamp v = v := bal_eq_self h

@[simp] theorem ri_val (v : Int) : ((ri v).val : Int) = v % 27 := by
  have := Int.emod_nonneg v (b := 27) (by decide)
  simp only [ri]
  omega

/-- The register index depends on the value modulo 27 only (30_encoding.md R63). -/
theorem ri_add_mul (v k : Int) : ri (v + 27 * k) = ri v := by
  apply Fin.ext
  have h1 := ri_val (v + 27 * k)
  have h2 := ri_val v
  omega

end Sys2Proof.Machine
end

