-- ==== Sys2Proof/Laws/Decode.lean ====
section
/-! SUPPORT. What the decoder's dispatch can answer, said once, and its small lemmas. -/

namespace Sys2Proof

open Sys2Proof.Machine (bal maxValue tritsValue_balancedTrits balancedTrits_length)

/-- Every answer of the dispatch (30_encoding.md R66, R68, R70): the instruction of an assigned opcode value, or the no-op
of an unassigned one. -/
theorem decodeFields_cases (o a b : Int) :
    (o = 0 ∧ decodeFields o a b = .halt a b) ∨
    (o = 1 ∧ decodeFields o a b = .add a b) ∨
    (o = 2 ∧ decodeFields o a b = .sub a b) ∨
    (o = 3 ∧ decodeFields o a b = .mul a b) ∨
    (o = 4 ∧ decodeFields o a b = .div a b) ∨
    (o = 6 ∧ decodeFields o a b = .neg a b) ∨
    (o = 11 ∧ decodeFields o a b = .set a b) ∨
    (o = 12 ∧ decodeFields o a b = .cpy a b) ∨
    (o = 20 ∧ decodeFields o a b = .jmp a b) ∨
    (o = 21 ∧ decodeFields o a b = .brn a b) ∨
    (o = 22 ∧ decodeFields o a b = .brp a b) ∨
    (o = 23 ∧ decodeFields o a b = .tri a b) ∨
    (o = 24 ∧ decodeFields o a b = .call a b) ∨
    (o = 30 ∧ decodeFields o a b = .rect a b) ∨
    (o = 31 ∧ decodeFields o a b = .pollMouse a b) ∨
    (o = 32 ∧ decodeFields o a b = .pollKey a b) ∨
    (o ∉ assignedOpcodes ∧ decodeFields o a b = .unknownOpcode o a b) := by
  by_cases h0 : o = 0
  · subst h0; exact .inl ⟨rfl, rfl⟩
  by_cases h1 : o = 1
  · subst h1; exact .inr (.inl ⟨rfl, rfl⟩)
  by_cases h2 : o = 2
  · subst h2; exact .inr (.inr (.inl ⟨rfl, rfl⟩))
  by_cases h3 : o = 3
  · subst h3; exact .inr (.inr (.inr (.inl ⟨rfl, rfl⟩)))
  by_cases h4 : o = 4
  · subst h4; exact .inr (.inr (.inr (.inr (.inl ⟨rfl, rfl⟩))))
  by_cases h6 : o = 6
  · subst h6; exact .inr (.inr (.inr (.inr (.inr (.inl ⟨rfl, rfl⟩)))))
  by_cases h11 : o = 11
  · subst h11; exact .inr (.inr (.inr (.inr (.inr (.inr (.inl ⟨rfl, rfl⟩))))))
  by_cases h12 : o = 12
  · subst h12; exact .inr (.inr (.inr (.inr (.inr (.inr (.inr (.inl ⟨rfl, rfl⟩)))))))
  by_cases h20 : o = 20
  · subst h20; exact .inr (.inr (.inr (.inr (.inr (.inr (.inr (.inr (.inl ⟨rfl, rfl⟩))))))))
  by_cases h21 : o = 21
  · subst h21; exact .inr (.inr (.inr (.inr (.inr (.inr (.inr (.inr (.inr (.inl ⟨rfl, rfl⟩)))))))))
  by_cases h22 : o = 22
  · subst h22; exact .inr (.inr (.inr (.inr (.inr (.inr (.inr (.inr (.inr (.inr (.inl ⟨rfl, rfl⟩))))))))))
  by_cases h23 : o = 23
  · subst h23; exact .inr (.inr (.inr (.inr (.inr (.inr (.inr (.inr (.inr (.inr (.inr (.inl ⟨rfl, rfl⟩)))))))))))
  by_cases h24 : o = 24
  · subst h24; exact .inr (.inr (.inr (.inr (.inr (.inr (.inr (.inr (.inr (.inr (.inr (.inr (.inl ⟨rfl, rfl⟩))))))))))))
  by_cases h30 : o = 30
  · subst h30; exact .inr (.inr (.inr (.inr (.inr (.inr (.inr (.inr (.inr (.inr (.inr (.inr (.inr (.inl ⟨rfl, rfl⟩)))))))))))))
  by_cases h31 : o = 31
  · subst h31; exact .inr (.inr (.inr (.inr (.inr (.inr (.inr (.inr (.inr (.inr (.inr (.inr (.inr (.inr (.inl ⟨rfl, rfl⟩))))))))))))))
  by_cases h32 : o = 32
  · subst h32; exact .inr (.inr (.inr (.inr (.inr (.inr (.inr (.inr (.inr (.inr (.inr (.inr (.inr (.inr (.inr (.inl ⟨rfl, rfl⟩)))))))))))))))
  refine .inr (.inr (.inr (.inr (.inr (.inr (.inr (.inr (.inr (.inr (.inr (.inr (.inr (.inr (.inr (.inr (?_))))))))))))))))
  exact ⟨by simp [assignedOpcodes, h0, h1, h2, h3, h4, h6, h11, h12, h20, h21, h22, h23, h24, h30, h31, h32], by simp [decodeFields, h0, h1, h2, h3, h4, h6, h11, h12, h20, h21, h22, h23, h24, h30, h31, h32]⟩

/-- The dispatch keeps the three field values. -/
theorem decodeFields_fields (o a b : Int) :
    (decodeFields o a b).opcodeNumber = o ∧ (decodeFields o a b).op1Field = a ∧ (decodeFields o a b).op2Field = b := by
  rcases decodeFields_cases o a b with ⟨h, e⟩ | ⟨h, e⟩ | ⟨h, e⟩ | ⟨h, e⟩ | ⟨h, e⟩ | ⟨h, e⟩ | ⟨h, e⟩ | ⟨h, e⟩ | ⟨h, e⟩ | ⟨h, e⟩ | ⟨h, e⟩ | ⟨h, e⟩ | ⟨h, e⟩ | ⟨h, e⟩ | ⟨h, e⟩ | ⟨h, e⟩ | ⟨h, e⟩ <;>
    (rw [e]; exact ⟨by first | exact h.symm | rfl, rfl, rfl⟩)

/-- Decoding the trits of three field values dispatches on what each field keeps (30_encoding.md R61, 40_codec.md R90). -/
theorem decode_encodeFields (o a b : Int) :
    decode (encodeFields o a b) = .ok (decodeFields (bal 4 o) (bal 5 a) (bal 6 b)) := by
  have hl : (encodeFields o a b).length = 15 := by simp [encodeFields]
  have e1 : (encodeFields o a b).take 4 = Machine.balancedTrits 4 o := by
    rw [encodeFields, List.append_assoc]; exact List.take_left' (by simp)
  have e2 : (encodeFields o a b).drop 4 = Machine.balancedTrits 5 a ++ Machine.balancedTrits 6 b := by
    rw [encodeFields, List.append_assoc]; exact List.drop_left' (by simp)
  have e3 : (encodeFields o a b).drop 9 = Machine.balancedTrits 6 b := by
    rw [encodeFields]; exact List.drop_left' (by simp)
  unfold decode
  rw [if_pos hl, e1, e2, e3, List.take_left' (by simp), List.take_of_length_le (by simp)]
  simp only [tritsValue_balancedTrits]

end Sys2Proof
end

