-- ==== Sys2Proof/Laws/Memory.lean ====
section
/-! SUPPORT. The laws of the trit memory: read after write, the canonical form is kept, and equal reads are equal data. -/

namespace Sys2Proof.Machine

theorem Memory.wf_nil : Memory.wf [] := by decide

theorem Memory.wf_cons {k : Nat} {t : Trit} {m : Memory} :
    Memory.wf ((k, t) :: m) ↔ t ≠ Memory.unlisted ∧ (∀ c ∈ m, k < c.1) ∧ Memory.wf m := by
  simp only [Memory.wf, List.pairwise_cons, List.mem_cons, forall_eq_or_imp]
  tauto

/-- An address that no entry has reads as unlisted. -/
theorem Memory.read_of_not_listed {m : Memory} {a : Nat} (h : ∀ c ∈ m, c.1 ≠ a) : m.read a = Memory.unlisted := by
  induction m with
  | nil => rfl
  | cons c m ih =>
    obtain ⟨k, t⟩ := c
    have hk : a ≠ k := fun e => h (k, t) (by simp) e.symm
    simp only [Memory.read, if_neg hk]
    exact ih (fun c hc => h c (by simp [hc]))

/-- A write leaves every other address alone, in any list. -/
theorem Memory.read_write_ne (m : Memory) {a b : Nat} (t : Trit) (h : b ≠ a) : (m.write a t).read b = m.read b := by
  induction m with
  | nil => simp only [Memory.write]; split <;> simp [Memory.read, h]
  | cons c m ih =>
    obtain ⟨k, u⟩ := c
    simp only [Memory.write]
    split
    · split
      · rfl
      · simp [Memory.read, h]
    · split
      · next hk => subst hk; split <;> simp [Memory.read, h]
      · simp [Memory.read, ih]

/-- Every entry after a write is the new one or an old one. -/
theorem Memory.mem_write {m : Memory} {a : Nat} {t : Trit} {c : Nat × Trit} (h : c ∈ m.write a t) :
    (c = (a, t) ∧ t ≠ Memory.unlisted) ∨ c ∈ m := by
  induction m with
  | nil =>
    simp only [Memory.write] at h
    split at h
    · cases h
    · next ht => exact .inl ⟨by simpa using h, ht⟩
  | cons d m ih =>
    obtain ⟨k, u⟩ := d
    simp only [Memory.write] at h
    split at h
    · split at h
      · exact .inr h
      · next ht =>
        rcases List.mem_cons.1 h with h | h
        · exact .inl ⟨h, ht⟩
        · exact .inr h
    · split at h
      · split at h
        · exact .inr (List.mem_cons_of_mem _ h)
        · next ht =>
          rcases List.mem_cons.1 h with h | h
          · exact .inl ⟨h, ht⟩
          · exact .inr (List.mem_cons_of_mem _ h)
      · rcases List.mem_cons.1 h with h | h
        · exact .inr (by simp [h])
        · exact (ih h).imp id (List.mem_cons_of_mem _)

/-- A write keeps the canonical form. -/
theorem Memory.write_wf {m : Memory} (h : m.wf) (a : Nat) (t : Trit) : (m.write a t).wf := by
  induction m with
  | nil =>
    simp only [Memory.write]
    split
    · exact h
    · next ht => exact Memory.wf_cons.2 ⟨ht, by simp, h⟩
  | cons c m ih =>
    obtain ⟨k, u⟩ := c
    obtain ⟨hu, hk, hm⟩ := Memory.wf_cons.1 h
    simp only [Memory.write]
    split
    · next hak =>
      split
      · exact h
      · next ht =>
        refine Memory.wf_cons.2 ⟨ht, ?_, h⟩
        intro c hc
        rcases List.mem_cons.1 hc with rfl | hc
        · exact hak
        · exact lt_trans hak (hk c hc)
    · next hak =>
      split
      · next hk' =>
        subst hk'
        split
        · exact hm
        · next ht => exact Memory.wf_cons.2 ⟨ht, hk, hm⟩
      · next hne =>
        refine Memory.wf_cons.2 ⟨hu, ?_, ih hm⟩
        intro c hc
        rcases Memory.mem_write hc with ⟨rfl, -⟩ | hc
        · show k < a; omega
        · exact hk c hc

/-- A read after a write to the same address gives the trit written. -/
theorem Memory.read_write_same {m : Memory} (h : m.wf) (a : Nat) (t : Trit) : (m.write a t).read a = t := by
  induction m with
  | nil =>
    simp only [Memory.write]
    split
    · next ht => simp [Memory.read, ht]
    · simp [Memory.read]
  | cons c m ih =>
    obtain ⟨k, u⟩ := c
    obtain ⟨hu, hk, hm⟩ := Memory.wf_cons.1 h
    simp only [Memory.write]
    split
    · next hak =>
      split
      · next ht =>
        subst ht
        refine Memory.read_of_not_listed ?_
        intro c hc
        rcases List.mem_cons.1 hc with rfl | hc
        · show k ≠ a; omega
        · have := hk c hc; omega
      · simp [Memory.read]
    · split
      · next hk' =>
        subst hk'
        split
        · next ht =>
          subst ht
          exact Memory.read_of_not_listed (fun c hc => by have := hk c hc; omega)
        · simp [Memory.read]
      · next hne => simp [Memory.read, hne, ih hm]

/-- Clearing keeps the canonical form. -/
theorem Memory.clear_wf {m : Memory} (h : m.wf) (lo hi : Nat) : (m.clear lo hi).wf :=
  ⟨List.Pairwise.filter _ h.1, fun c hc => h.2 c (List.mem_filter.1 hc).1⟩

/-- Every entry after clearing is an old one. -/
theorem Memory.mem_clear {m : Memory} {lo hi : Nat} {c : Nat × Trit} (h : c ∈ m.clear lo hi) : c ∈ m :=
  (List.mem_filter.1 h).1

/-- Clearing makes the window read 0 and leaves every other address alone. -/
theorem Memory.read_clear (m : Memory) (lo hi a : Nat) :
    (m.clear lo hi).read a = if lo ≤ a ∧ a < hi then Memory.unlisted else m.read a := by
  induction m with
  | nil => simp [Memory.clear, Memory.read]
  | cons c m ih =>
    obtain ⟨k, t⟩ := c
    simp only [Memory.clear] at ih ⊢
    by_cases hw : lo ≤ k ∧ k < hi
    · rw [List.filter_cons_of_neg (by simp [hw.1, hw.2]), ih]
      split
      · rfl
      · next h =>
        have : a ≠ k := by rintro rfl; exact h hw
        simp [Memory.read, this]
    · rw [List.filter_cons_of_pos (by simp; omega)]
      simp only [Memory.read]
      by_cases hak : a = k
      · subst hak; simp [hw]
      · simp only [if_neg hak]; exact ih

/-- In canonical form, memories that read the same are the same list. -/
theorem Memory.ext_read {m n : Memory} (hm : m.wf) (hn : n.wf) (h : ∀ a, m.read a = n.read a) : m = n := by
  induction m generalizing n with
  | nil =>
    cases n with
    | nil => rfl
    | cons d n =>
      obtain ⟨k, u⟩ := d
      have := h k
      simp only [Memory.read, if_true] at this
      exact absurd this.symm (Memory.wf_cons.1 hn).1
  | cons c m ih =>
    obtain ⟨k, t⟩ := c
    obtain ⟨ht, hk, hm'⟩ := Memory.wf_cons.1 hm
    cases n with
    | nil =>
      have := h k
      simp only [Memory.read, if_true] at this
      exact absurd this ht
    | cons d n =>
      obtain ⟨l, u⟩ := d
      obtain ⟨hu, hl, hn'⟩ := Memory.wf_cons.1 hn
      have hkl : k = l := by
        by_contra hne
        rcases Nat.lt_or_gt_of_ne hne with hlt | hlt
        · have := h k
          simp only [Memory.read, if_true, if_neg hne] at this
          rw [Memory.read_of_not_listed (fun c hc => by have := hl c hc; omega)] at this
          exact ht this
        · have := h l
          simp only [Memory.read, if_true, if_neg (Ne.symm hne)] at this
          rw [Memory.read_of_not_listed (fun c hc => by have := hk c hc; omega)] at this
          exact hu this.symm
      subst hkl
      have htu : t = u := by
        have := h k
        simpa only [Memory.read, if_true] using this
      subst htu
      have hmn : m = n := by
        refine ih hm' hn' (fun a => ?_)
        by_cases hak : a = k
        · subst hak
          rw [Memory.read_of_not_listed (fun c hc => by have := hk c hc; omega),
            Memory.read_of_not_listed (fun c hc => by have := hl c hc; omega)]
        · have := h a
          simpa only [Memory.read, if_neg hak] using this
      rw [hmn]

end Sys2Proof.Machine
end

