-- ==== Sys2Proof/Laws/State.lean ====
section
/-! SUPPORT. One lemma per field per update of the state record, and the two laws of the register file. -/

namespace Sys2Proof.Machine

section writeReg
variable (s : State) (r : Reg) (v : Int)
@[simp] theorem State.writeReg_pc : (s.writeReg r v).pc = s.pc := rfl
@[simp] theorem State.writeReg_halted : (s.writeReg r v).halted = s.halted := rfl
@[simp] theorem State.writeReg_mem : (s.writeReg r v).mem = s.mem := rfl
@[simp] theorem State.writeReg_portMx : (s.writeReg r v).portMx = s.portMx := rfl
@[simp] theorem State.writeReg_portMy : (s.writeReg r v).portMy = s.portMy := rfl
@[simp] theorem State.writeReg_portClick : (s.writeReg r v).portClick = s.portClick := rfl
@[simp] theorem State.writeReg_heldKeys : (s.writeReg r v).heldKeys = s.heldKeys := rfl
@[simp] theorem State.writeReg_build : (s.writeReg r v).build = s.build := rfl
@[simp] theorem State.writeReg_schedule : (s.writeReg r v).schedule = s.schedule := rfl
@[simp] theorem State.writeReg_readCell (a : Int) : (s.writeReg r v).readCell a = s.readCell a := rfl
@[simp] theorem State.readReg_writeReg_same : (s.writeReg r v).readReg r = v := by
  simp [State.readReg, State.writeReg]
theorem State.readReg_writeReg_ne {q : Reg} (h : q ≠ r) : (s.writeReg r v).readReg q = s.readReg q := by
  have h' : r.val ≠ q.val := fun e => h (Fin.ext e.symm)
  simp [State.readReg, State.writeReg, h']
theorem State.readReg_writeReg (q : Reg) :
    (s.writeReg r v).readReg q = if q = r then v else s.readReg q := by
  split
  · next h => subst h; exact State.readReg_writeReg_same s q v
  · next h => exact State.readReg_writeReg_ne s r v h
end writeReg

section pcUpdates
variable (s : State) (p : Int)
@[simp] theorem State.advance_pc : s.advance.pc = s.pc + 15 := rfl
@[simp] theorem State.advance_x : s.advance.x = s.x := rfl
@[simp] theorem State.advance_halted : s.advance.halted = s.halted := rfl
@[simp] theorem State.advance_mem : s.advance.mem = s.mem := rfl
@[simp] theorem State.advance_portMx : s.advance.portMx = s.portMx := rfl
@[simp] theorem State.advance_portMy : s.advance.portMy = s.portMy := rfl
@[simp] theorem State.advance_portClick : s.advance.portClick = s.portClick := rfl
@[simp] theorem State.advance_heldKeys : s.advance.heldKeys = s.heldKeys := rfl
@[simp] theorem State.advance_build : s.advance.build = s.build := rfl
@[simp] theorem State.advance_schedule : s.advance.schedule = s.schedule := rfl
@[simp] theorem State.advance_readReg (r : Reg) : s.advance.readReg r = s.readReg r := rfl
@[simp] theorem State.advance_readCell (a : Int) : s.advance.readCell a = s.readCell a := rfl
@[simp] theorem State.jump_pc : (s.jump p).pc = p := rfl
@[simp] theorem State.jump_x : (s.jump p).x = s.x := rfl
@[simp] theorem State.jump_halted : (s.jump p).halted = s.halted := rfl
@[simp] theorem State.jump_mem : (s.jump p).mem = s.mem := rfl
@[simp] theorem State.jump_portMx : (s.jump p).portMx = s.portMx := rfl
@[simp] theorem State.jump_portMy : (s.jump p).portMy = s.portMy := rfl
@[simp] theorem State.jump_portClick : (s.jump p).portClick = s.portClick := rfl
@[simp] theorem State.jump_heldKeys : (s.jump p).heldKeys = s.heldKeys := rfl
@[simp] theorem State.jump_build : (s.jump p).build = s.build := rfl
@[simp] theorem State.jump_schedule : (s.jump p).schedule = s.schedule := rfl
@[simp] theorem State.jump_readReg (r : Reg) : (s.jump p).readReg r = s.readReg r := rfl
@[simp] theorem State.jump_readCell (a : Int) : (s.jump p).readCell a = s.readCell a := rfl
end pcUpdates

section setHalted
variable (s : State) (b : Bool)
@[simp] theorem State.setHalted_pc : (s.setHalted b).pc = s.pc := rfl
@[simp] theorem State.setHalted_x : (s.setHalted b).x = s.x := rfl
@[simp] theorem State.setHalted_halted : (s.setHalted b).halted = b := rfl
@[simp] theorem State.setHalted_mem : (s.setHalted b).mem = s.mem := rfl
@[simp] theorem State.setHalted_portMx : (s.setHalted b).portMx = s.portMx := rfl
@[simp] theorem State.setHalted_portMy : (s.setHalted b).portMy = s.portMy := rfl
@[simp] theorem State.setHalted_portClick : (s.setHalted b).portClick = s.portClick := rfl
@[simp] theorem State.setHalted_heldKeys : (s.setHalted b).heldKeys = s.heldKeys := rfl
@[simp] theorem State.setHalted_build : (s.setHalted b).build = s.build := rfl
@[simp] theorem State.setHalted_schedule : (s.setHalted b).schedule = s.schedule := rfl
@[simp] theorem State.setHalted_readReg (r : Reg) : (s.setHalted b).readReg r = s.readReg r := rfl
@[simp] theorem State.setHalted_readCell (a : Int) : (s.setHalted b).readCell a = s.readCell a := rfl
end setHalted

section writeCell
variable (s : State) (a : Int) (t : Trit)
@[simp] theorem State.writeCell_pc : (s.writeCell a t).pc = s.pc := by unfold State.writeCell; split <;> rfl
@[simp] theorem State.writeCell_x : (s.writeCell a t).x = s.x := by unfold State.writeCell; split <;> rfl
@[simp] theorem State.writeCell_halted : (s.writeCell a t).halted = s.halted := by
  unfold State.writeCell; split <;> rfl
@[simp] theorem State.writeCell_portMx : (s.writeCell a t).portMx = s.portMx := by
  unfold State.writeCell; split <;> rfl
@[simp] theorem State.writeCell_portMy : (s.writeCell a t).portMy = s.portMy := by
  unfold State.writeCell; split <;> rfl
@[simp] theorem State.writeCell_portClick : (s.writeCell a t).portClick = s.portClick := by
  unfold State.writeCell; split <;> rfl
@[simp] theorem State.writeCell_heldKeys : (s.writeCell a t).heldKeys = s.heldKeys := by
  unfold State.writeCell; split <;> rfl
@[simp] theorem State.writeCell_build : (s.writeCell a t).build = s.build := by
  unfold State.writeCell; split <;> rfl
@[simp] theorem State.writeCell_schedule : (s.writeCell a t).schedule = s.schedule := by
  unfold State.writeCell; split <;> rfl
end writeCell

section clearAndZero
variable (s : State)
@[simp] theorem State.clearWindow_pc : s.clearWindow.pc = s.pc := rfl
@[simp] theorem State.clearWindow_x : s.clearWindow.x = s.x := rfl
@[simp] theorem State.clearWindow_halted : s.clearWindow.halted = s.halted := rfl
@[simp] theorem State.clearWindow_portMx : s.clearWindow.portMx = s.portMx := rfl
@[simp] theorem State.clearWindow_portMy : s.clearWindow.portMy = s.portMy := rfl
@[simp] theorem State.clearWindow_portClick : s.clearWindow.portClick = s.portClick := rfl
@[simp] theorem State.clearWindow_heldKeys : s.clearWindow.heldKeys = s.heldKeys := rfl
@[simp] theorem State.clearWindow_build : s.clearWindow.build = s.build := rfl
@[simp] theorem State.clearWindow_schedule : s.clearWindow.schedule = s.schedule := rfl
@[simp] theorem State.zeroRegisters_pc : s.zeroRegisters.pc = s.pc := rfl
@[simp] theorem State.zeroRegisters_halted : s.zeroRegisters.halted = s.halted := rfl
@[simp] theorem State.zeroRegisters_mem : s.zeroRegisters.mem = s.mem := rfl
@[simp] theorem State.zeroRegisters_portMx : s.zeroRegisters.portMx = s.portMx := rfl
@[simp] theorem State.zeroRegisters_portMy : s.zeroRegisters.portMy = s.portMy := rfl
@[simp] theorem State.zeroRegisters_portClick : s.zeroRegisters.portClick = s.portClick := rfl
@[simp] theorem State.zeroRegisters_heldKeys : s.zeroRegisters.heldKeys = s.heldKeys := rfl
@[simp] theorem State.zeroRegisters_build : s.zeroRegisters.build = s.build := rfl
@[simp] theorem State.zeroRegisters_schedule : s.zeroRegisters.schedule = s.schedule := rfl
@[simp] theorem State.zeroRegisters_readCell (a : Int) : s.zeroRegisters.readCell a = s.readCell a := rfl
@[simp] theorem State.zeroRegisters_readReg (r : Reg) : s.zeroRegisters.readReg r = 0 := by
  simp [State.readReg, State.zeroRegisters]
end clearAndZero

section powerOn
variable (b : Build)
@[simp] theorem State.powerOn_x : (State.powerOn b).x = Vector.replicate 27 0 := rfl
@[simp] theorem State.powerOn_pc : (State.powerOn b).pc = (b.bootAddr : Int) := rfl
@[simp] theorem State.powerOn_halted : (State.powerOn b).halted = false := rfl
@[simp] theorem State.powerOn_mem : (State.powerOn b).mem = [] := rfl
@[simp] theorem State.powerOn_portMx : (State.powerOn b).portMx = 0 := rfl
@[simp] theorem State.powerOn_portMy : (State.powerOn b).portMy = 0 := rfl
@[simp] theorem State.powerOn_portClick : (State.powerOn b).portClick = 0 := rfl
@[simp] theorem State.powerOn_heldKeys : (State.powerOn b).heldKeys = [] := rfl
@[simp] theorem State.powerOn_build : (State.powerOn b).build = b := rfl
@[simp] theorem State.powerOn_schedule : (State.powerOn b).schedule = [] := rfl
end powerOn

section withPorts
variable (s : State) (mx my click : Int) (held : List Int)
@[simp] theorem State.withPorts_x : (s.withPorts mx my click held).x = s.x := rfl
@[simp] theorem State.withPorts_pc : (s.withPorts mx my click held).pc = s.pc := rfl
@[simp] theorem State.withPorts_halted : (s.withPorts mx my click held).halted = s.halted := rfl
@[simp] theorem State.withPorts_mem : (s.withPorts mx my click held).mem = s.mem := rfl
@[simp] theorem State.withPorts_portMx : (s.withPorts mx my click held).portMx = mx := rfl
@[simp] theorem State.withPorts_portMy : (s.withPorts mx my click held).portMy = my := rfl
@[simp] theorem State.withPorts_portClick : (s.withPorts mx my click held).portClick = click := rfl
@[simp] theorem State.withPorts_heldKeys : (s.withPorts mx my click held).heldKeys = held := rfl
@[simp] theorem State.withPorts_build : (s.withPorts mx my click held).build = s.build := rfl
@[simp] theorem State.withPorts_schedule : (s.withPorts mx my click held).schedule = s.schedule := rfl
@[simp] theorem State.withPorts_readReg (r : Reg) : (s.withPorts mx my click held).readReg r = s.readReg r := rfl
@[simp] theorem State.withPorts_readCell (a : Int) : (s.withPorts mx my click held).readCell a = s.readCell a := rfl
end withPorts

end Sys2Proof.Machine
end

