-- ==== Sys2Proof/Laws/Ops.lean ====
section
/-! SUPPORT. What each shared operation over registers and memory does, once. -/

namespace Sys2Proof.Machine

theorem State.inMemory_iff (s : State) (a : Int) : s.inMemory a = true ↔ 0 ≤ a ∧ a < (s.build.memSize : Int) := by
  simp [State.inMemory]

/-- Being in memory depends on the build only. -/
theorem State.inMemory_congr {s t : State} (h : t.build = s.build) (a : Int) : t.inMemory a = s.inMemory a := by
  simp [State.inMemory, h]

/-- Reading depends on memory and build only. -/
theorem State.readCell_congr {s t : State} (hm : t.mem = s.mem) (hb : t.build = s.build) (a : Int) :
    t.readCell a = s.readCell a := by
  simp [State.readCell, State.inMemory, hm, hb]

/-- A cell outside memory reads 0 (20_memory.md R43). -/
theorem State.readCell_outside (s : State) {a : Int} (h : ¬(0 ≤ a ∧ a < (s.build.memSize : Int))) :
    s.readCell a = .zero := by
  have : ¬(s.inMemory a = true) := fun e => h ((s.inMemory_iff a).1 e)
  simp [State.readCell, this]

theorem State.readCell_writeCell_ne (s : State) {a b : Int} (t : Trit) (h : b ≠ a) :
    (s.writeCell a t).readCell b = s.readCell b := by
  unfold State.writeCell
  split
  · next ha =>
    have hb : ({ s with mem := s.mem.write a.toNat t } : State).inMemory b = s.inMemory b := rfl
    unfold State.readCell
    rw [hb]
    split
    · next hbm =>
      have := (s.inMemory_iff a).1 ha
      have := (s.inMemory_iff b).1 hbm
      exact Memory.read_write_ne _ _ (by omega)
    · rfl
  · rfl

theorem State.readCell_writeCell_same (s : State) (hw : s.mem.wf) {a : Int} (t : Trit) (ha : s.inMemory a = true) :
    (s.writeCell a t).readCell a = t := by
  simp only [State.writeCell, if_pos ha]
  have : ({ s with mem := s.mem.write a.toNat t } : State).inMemory a = true := ha
  simp only [State.readCell, if_pos this]
  exact Memory.read_write_same hw _ _

theorem State.writeCell_mem_wf {s : State} (h : s.mem.wf) (a : Int) (t : Trit) : (s.writeCell a t).mem.wf := by
  unfold State.writeCell
  split
  · exact Memory.write_wf h _ _
  · exact h

/-- The entries of memory stay below MEM_SIZE. -/
theorem State.writeCell_mem_lt {s : State} (h : ∀ c ∈ s.mem, c.1 < s.build.memSize) (a : Int) (t : Trit) :
    ∀ c ∈ (s.writeCell a t).mem, c.1 < (s.writeCell a t).build.memSize := by
  intro c hc
  rw [State.writeCell_build]
  unfold State.writeCell at hc
  split at hc
  · next ha =>
    rcases Memory.mem_write hc with ⟨rfl, -⟩ | hc
    · have := (s.inMemory_iff a).1 ha
      show a.toNat < _
      omega
    · exact h c hc
  · exact h c hc

section writeTrits
variable (s : State) (a : Int) (ts : List Trit)
@[simp] theorem State.writeTrits_pc : (s.writeTrits a ts).pc = s.pc := by
  induction ts generalizing s a <;> simp [State.writeTrits, *]
@[simp] theorem State.writeTrits_x : (s.writeTrits a ts).x = s.x := by
  induction ts generalizing s a <;> simp [State.writeTrits, *]
@[simp] theorem State.writeTrits_halted : (s.writeTrits a ts).halted = s.halted := by
  induction ts generalizing s a <;> simp [State.writeTrits, *]
@[simp] theorem State.writeTrits_portMx : (s.writeTrits a ts).portMx = s.portMx := by
  induction ts generalizing s a <;> simp [State.writeTrits, *]
@[simp] theorem State.writeTrits_portMy : (s.writeTrits a ts).portMy = s.portMy := by
  induction ts generalizing s a <;> simp [State.writeTrits, *]
@[simp] theorem State.writeTrits_portClick : (s.writeTrits a ts).portClick = s.portClick := by
  induction ts generalizing s a <;> simp [State.writeTrits, *]
@[simp] theorem State.writeTrits_heldKeys : (s.writeTrits a ts).heldKeys = s.heldKeys := by
  induction ts generalizing s a <;> simp [State.writeTrits, *]
@[simp] theorem State.writeTrits_build : (s.writeTrits a ts).build = s.build := by
  induction ts generalizing s a <;> simp [State.writeTrits, *]
@[simp] theorem State.writeTrits_schedule : (s.writeTrits a ts).schedule = s.schedule := by
  induction ts generalizing s a <;> simp [State.writeTrits, *]
@[simp] theorem State.writeTrits_readReg (r : Reg) : (s.writeTrits a ts).readReg r = s.readReg r := by
  simp [State.readReg]
end writeTrits

theorem State.writeTrits_mem_wf {s : State} (h : s.mem.wf) (a : Int) (ts : List Trit) : (s.writeTrits a ts).mem.wf := by
  induction ts generalizing s a with
  | nil => exact h
  | cons t ts ih => exact ih (State.writeCell_mem_wf h a t) (a + 1)

theorem State.writeTrits_mem_lt {s : State} (h : ∀ c ∈ s.mem, c.1 < s.build.memSize) (a : Int) (ts : List Trit) :
    ∀ c ∈ (s.writeTrits a ts).mem, c.1 < (s.writeTrits a ts).build.memSize := by
  induction ts generalizing s a with
  | nil => exact h
  | cons t ts ih => exact ih (State.writeCell_mem_lt h a t) (a + 1)

theorem State.writeTrits_append (s : State) (a : Int) (ts us : List Trit) :
    s.writeTrits a (ts ++ us) = (s.writeTrits a ts).writeTrits (a + (ts.length : Int)) us := by
  induction ts generalizing s a with
  | nil => simp [State.writeTrits]
  | cons t ts ih =>
    simp only [List.cons_append, State.writeTrits, ih, List.length_cons]
    congr 1
    push_cast
    ring

/-- A cell that no trit of the write goes to reads as before; no hypothesis on memory. -/
theorem State.readCell_writeTrits_outside (s : State) {a b : Int} (ts : List Trit)
    (h : ¬(a ≤ b ∧ b < a + (ts.length : Int))) : (s.writeTrits a ts).readCell b = s.readCell b := by
  induction ts generalizing s a with
  | nil => rfl
  | cons t ts ih =>
    simp only [List.length_cons] at h
    push_cast at h
    rw [State.writeTrits, ih _ (by omega), State.readCell_writeCell_ne _ _ (by omega)]

/-- Trit k of a write is what its cell then holds, if memory has the cell. -/
theorem State.readCell_writeTrits_inside (s : State) (hw : s.mem.wf) {a : Int} (ts : List Trit) {k : Nat}
    (hk : k < ts.length) (hin : s.inMemory (a + (k : Int)) = true) :
    (s.writeTrits a ts).readCell (a + (k : Int)) = ts[k] := by
  induction ts generalizing s a k with
  | nil => simp at hk
  | cons t ts ih =>
    cases k with
    | zero =>
      rw [State.writeTrits, State.readCell_writeTrits_outside _ _ (by omega)]
      simp only [Nat.cast_zero, add_zero] at hin ⊢
      exact State.readCell_writeCell_same s hw t hin
    | succ k =>
      have h1 : a + ((k + 1 : Nat) : Int) = a + 1 + (k : Int) := by push_cast; ring
      rw [h1] at hin ⊢
      have := ih (s.writeCell a t) (State.writeCell_mem_wf hw a t) (a := a + 1) (k := k) (by simpa using hk)
        (by rw [State.inMemory_congr (State.writeCell_build s a t)]; exact hin)
      simpa [State.writeTrits] using this

section memWrite
variable (s : State) (a : Int) (n : Nat) (v : Int)
@[simp] theorem State.memWrite_pc : (s.memWrite a n v).pc = s.pc := State.writeTrits_pc _ _ _
@[simp] theorem State.memWrite_x : (s.memWrite a n v).x = s.x := State.writeTrits_x _ _ _
@[simp] theorem State.memWrite_halted : (s.memWrite a n v).halted = s.halted := State.writeTrits_halted _ _ _
@[simp] theorem State.memWrite_portMx : (s.memWrite a n v).portMx = s.portMx := State.writeTrits_portMx _ _ _
@[simp] theorem State.memWrite_portMy : (s.memWrite a n v).portMy = s.portMy := State.writeTrits_portMy _ _ _
@[simp] theorem State.memWrite_portClick : (s.memWrite a n v).portClick = s.portClick :=
  State.writeTrits_portClick _ _ _
@[simp] theorem State.memWrite_heldKeys : (s.memWrite a n v).heldKeys = s.heldKeys := State.writeTrits_heldKeys _ _ _
@[simp] theorem State.memWrite_build : (s.memWrite a n v).build = s.build := State.writeTrits_build _ _ _
@[simp] theorem State.memWrite_schedule : (s.memWrite a n v).schedule = s.schedule := State.writeTrits_schedule _ _ _
@[simp] theorem State.memWrite_readReg (r : Reg) : (s.memWrite a n v).readReg r = s.readReg r :=
  State.writeTrits_readReg _ _ _ _
end memWrite

/-- What `MemWrite` does to a cell: trit k of the encoding lands at a + k, every other cell and every cell outside memory
reads as before (40_codec.md R88, 20_memory.md R44). -/
theorem State.readCell_memWrite_outside (s : State) {a b : Int} {n : Nat} (v : Int)
    (h : ¬(a ≤ b ∧ b < a + (n : Int))) : (s.memWrite a n v).readCell b = s.readCell b :=
  State.readCell_writeTrits_outside s _ (by simpa using h)

@[simp] theorem State.readTrits_length (s : State) (a : Int) (n : Nat) : (s.readTrits a n).length = n := by
  simp [State.readTrits]

theorem State.readTrits_getElem (s : State) (a : Int) (n k : Nat) (h : k < (s.readTrits a n).length) :
    (s.readTrits a n)[k] = s.readCell (a + (k : Int)) := by
  simp [State.readTrits]

/-- Strings of cells that read the same are the same. -/
theorem State.readTrits_congr {s t : State} {a : Int} {n : Nat}
    (h : ∀ k : Nat, k < n → t.readCell (a + (k : Int)) = s.readCell (a + (k : Int))) :
    t.readTrits a n = s.readTrits a n := by
  unfold State.readTrits
  exact List.map_congr_left (fun k hk => h k (List.mem_range.1 hk))

theorem State.memRead_congr {s t : State} {a : Int} {n : Nat}
    (h : ∀ k : Nat, k < n → t.readCell (a + (k : Int)) = s.readCell (a + (k : Int))) :
    t.memRead a n = s.memRead a n := by
  unfold State.memRead; rw [State.readTrits_congr h]

theorem State.readTrits_append (s : State) (a : Int) (m n : Nat) :
    s.readTrits a (m + n) = s.readTrits a m ++ s.readTrits (a + (m : Int)) n := by
  unfold State.readTrits
  rw [List.range_add, List.map_append, List.map_map]
  congr 1
  refine List.map_congr_left (fun k _ => ?_)
  simp only [Function.comp]
  congr 1
  push_cast
  ring

/-- A decode splits at any trit (20_memory.md R42). -/
theorem State.memRead_add (s : State) (a : Int) (m n : Nat) :
    s.memRead a (m + n) = s.memRead a m + ((3 ^ m : Nat) : Int) * s.memRead (a + (m : Int)) n := by
  unfold State.memRead
  rw [State.readTrits_append, tritsValue_append, State.readTrits_length]

theorem State.memRead_range (s : State) (a : Int) (n : Nat) :
    -maxValue n ≤ s.memRead a n ∧ s.memRead a n ≤ maxValue n := by
  have := tritsValue_range (s.readTrits a n)
  rwa [State.readTrits_length] at this

/-- Reading back trits just written, all in memory. -/
theorem State.readTrits_writeTrits (s : State) (hw : s.mem.wf) (a : Int) (ts : List Trit)
    (hin : ∀ k : Nat, k < ts.length → s.inMemory (a + (k : Int)) = true) :
    (s.writeTrits a ts).readTrits a ts.length = ts := by
  refine List.ext_getElem (by simp) (fun k h1 h2 => ?_)
  rw [State.readTrits_getElem]
  exact State.readCell_writeTrits_inside s hw ts h2 (hin k h2)

/-- Read after write through the codec: `bal n v` (40_codec.md R90). -/
theorem State.memRead_memWrite (s : State) (hw : s.mem.wf) (a : Int) (n : Nat) (v : Int)
    (hin : ∀ k : Nat, k < n → s.inMemory (a + (k : Int)) = true) : (s.memWrite a n v).memRead a n = bal n v := by
  have h := State.readTrits_writeTrits s hw a (balancedTrits n v) (by simpa using hin)
  rw [balancedTrits_length] at h
  unfold State.memRead State.memWrite
  rw [h, tritsValue_balancedTrits]

theorem mem_intRange {lo hi v : Int} : v ∈ intRange lo hi ↔ lo ≤ v ∧ v < hi := by
  simp only [intRange, List.mem_map, List.mem_range]
  constructor
  · rintro ⟨k, hk, rfl⟩; omega
  · intro h; exact ⟨(v - lo).toNat, by omega, by omega⟩

/-- Which pixels RECT visits (45_io_instructions.md R136, R138). -/
theorem mem_clippedPixels {b : Build} {px py w h : Int} {c : Int × Int} :
    c ∈ clippedPixels b px py w h ↔ pixelCovered b px py w h c.1 c.2 := by
  obtain ⟨p, q⟩ := c
  simp only [clippedPixels, List.mem_flatMap, List.mem_map, mem_intRange, Prod.mk.injEq, pixelCovered]
  constructor
  · rintro ⟨q', hq, p', hp, rfl, rfl⟩; omega
  · intro h; exact ⟨q, by omega, p, by omega, rfl, rfl⟩

/-- The nine trits of a pixel, channels R, G, B (20_memory.md R50, 45_io_instructions.md R137). -/
def pixelTrits (r g b : Int) : List Trit := balancedTrits 3 r ++ balancedTrits 3 g ++ balancedTrits 3 b

@[simp] theorem pixelTrits_length (r g b : Int) : (pixelTrits r g b).length = 9 := by simp [pixelTrits]

/-- A pixel is one write of nine trits. -/
theorem State.writePixel_eq (s : State) (px py r g b : Int) :
    s.writePixel px py r g b = s.writeTrits (pixelBase s.build px py) (pixelTrits r g b) := by
  rw [pixelTrits, State.writeTrits_append, State.writeTrits_append]
  simp only [List.length_append, balancedTrits_length]
  rfl

section fillPixels
variable (ps : List (Int × Int)) (r g b : Int) (s : State)
/-- The fold that `fillRect` is. -/
abbrev fillPixels : State := ps.foldl (fun t p => t.writePixel p.1 p.2 r g b) s
@[simp] theorem fillPixels_pc : (fillPixels ps r g b s).pc = s.pc := by
  induction ps generalizing s with
  | nil => rfl
  | cons p ps ih => exact (ih _).trans (by simp [State.writePixel_eq])
@[simp] theorem fillPixels_x : (fillPixels ps r g b s).x = s.x := by
  induction ps generalizing s with
  | nil => rfl
  | cons p ps ih => exact (ih _).trans (by simp [State.writePixel_eq])
@[simp] theorem fillPixels_halted : (fillPixels ps r g b s).halted = s.halted := by
  induction ps generalizing s with
  | nil => rfl
  | cons p ps ih => exact (ih _).trans (by simp [State.writePixel_eq])
@[simp] theorem fillPixels_portMx : (fillPixels ps r g b s).portMx = s.portMx := by
  induction ps generalizing s with
  | nil => rfl
  | cons p ps ih => exact (ih _).trans (by simp [State.writePixel_eq])
@[simp] theorem fillPixels_portMy : (fillPixels ps r g b s).portMy = s.portMy := by
  induction ps generalizing s with
  | nil => rfl
  | cons p ps ih => exact (ih _).trans (by simp [State.writePixel_eq])
@[simp] theorem fillPixels_portClick : (fillPixels ps r g b s).portClick = s.portClick := by
  induction ps generalizing s with
  | nil => rfl
  | cons p ps ih => exact (ih _).trans (by simp [State.writePixel_eq])
@[simp] theorem fillPixels_heldKeys : (fillPixels ps r g b s).heldKeys = s.heldKeys := by
  induction ps generalizing s with
  | nil => rfl
  | cons p ps ih => exact (ih _).trans (by simp [State.writePixel_eq])
@[simp] theorem fillPixels_build : (fillPixels ps r g b s).build = s.build := by
  induction ps generalizing s with
  | nil => rfl
  | cons p ps ih => exact (ih _).trans (by simp [State.writePixel_eq])
@[simp] theorem fillPixels_schedule : (fillPixels ps r g b s).schedule = s.schedule := by
  induction ps generalizing s with
  | nil => rfl
  | cons p ps ih => exact (ih _).trans (by simp [State.writePixel_eq])
@[simp] theorem fillPixels_readReg (q : Reg) : (fillPixels ps r g b s).readReg q = s.readReg q := by
  unfold State.readReg; simp only [fillPixels_x]
end fillPixels

theorem fillPixels_mem_wf {s : State} (h : s.mem.wf) (ps : List (Int × Int)) (r g b : Int) :
    (fillPixels ps r g b s).mem.wf := by
  induction ps generalizing s with
  | nil => exact h
  | cons p ps ih =>
    refine ih (s := s.writePixel p.1 p.2 r g b) ?_
    rw [State.writePixel_eq]; exact State.writeTrits_mem_wf h _ _

theorem fillPixels_mem_lt {s : State} (h : ∀ c ∈ s.mem, c.1 < s.build.memSize) (ps : List (Int × Int)) (r g b : Int) :
    ∀ c ∈ (fillPixels ps r g b s).mem, c.1 < (fillPixels ps r g b s).build.memSize := by
  induction ps generalizing s with
  | nil => exact h
  | cons p ps ih =>
    refine ih (s := s.writePixel p.1 p.2 r g b) ?_
    rw [State.writePixel_eq]; exact State.writeTrits_mem_lt h _ _

/-- A cell of no visited pixel reads as before; no hypothesis on memory. -/
theorem readCell_fillPixels_outside (s : State) (ps : List (Int × Int)) (r g b : Int) {a : Int}
    (h : ∀ p ∈ ps, ¬(pixelBase s.build p.1 p.2 ≤ a ∧ a < pixelBase s.build p.1 p.2 + 9)) :
    (fillPixels ps r g b s).readCell a = s.readCell a := by
  induction ps generalizing s with
  | nil => rfl
  | cons p ps ih =>
    have hb : (s.writePixel p.1 p.2 r g b).build = s.build := by simp [State.writePixel_eq]
    have h1 := ih (s.writePixel p.1 p.2 r g b) (fun q hq => by rw [hb]; exact h q (by simp [hq]))
    have h2 : (s.writePixel p.1 p.2 r g b).readCell a = s.readCell a := by
      rw [State.writePixel_eq]
      exact State.readCell_writeTrits_outside s _ (by simpa using h p (by simp))
    exact h1.trans h2

/-- Which trit of the nine a cell of the framebuffer holds. -/
def pixelTritAt (bd : Build) (r g b a : Int) : Trit :=
  (pixelTrits r g b).getD ((a - (bd.fbBase : Int)) % 9).toNat .zero

theorem readCell_writePixel_inside (s : State) (hw : s.mem.wf) (px py r g b : Int) {a : Int}
    (hin : s.inMemory a = true) (h : pixelBase s.build px py ≤ a ∧ a < pixelBase s.build px py + 9) :
    (s.writePixel px py r g b).readCell a = pixelTritAt s.build r g b a := by
  have hk : (a - (s.build.fbBase : Int)) % 9 = a - pixelBase s.build px py := by
    simp only [pixelBase] at h ⊢; omega
  have ha : a = pixelBase s.build px py + (((a - pixelBase s.build px py).toNat : Nat) : Int) := by omega
  have hlt : (a - pixelBase s.build px py).toNat < (pixelTrits r g b).length := by rw [pixelTrits_length]; omega
  have := State.readCell_writeTrits_inside s hw (a := pixelBase s.build px py) (pixelTrits r g b) hlt
    (by rw [← ha]; exact hin)
  rw [← ha] at this
  rw [State.writePixel_eq, this, pixelTritAt, hk, List.getD_eq_getElem?_getD, List.getElem?_eq_getElem hlt,
    Option.getD_some]

/-- What a fill does to any cell of memory: the trit of the colour at the cell's place in its pixel where a visited pixel
has the cell, else what was there; the order of the visits cannot be observed (45_io_instructions.md R136). -/
theorem readCell_fillPixels (s : State) (hw : s.mem.wf) (ps : List (Int × Int)) (r g b : Int) {a : Int}
    (hin : s.inMemory a = true)
    (h : ∃ p ∈ ps, pixelBase s.build p.1 p.2 ≤ a ∧ a < pixelBase s.build p.1 p.2 + 9) :
    (fillPixels ps r g b s).readCell a = pixelTritAt s.build r g b a := by
  induction ps generalizing s with
  | nil => obtain ⟨p, hp, -⟩ := h; cases hp
  | cons q ps ih =>
    have hb : (s.writePixel q.1 q.2 r g b).build = s.build := by simp [State.writePixel_eq]
    have hw' : (s.writePixel q.1 q.2 r g b).mem.wf := by
      rw [State.writePixel_eq]; exact State.writeTrits_mem_wf hw _ _
    by_cases hps : ∃ p ∈ ps, pixelBase s.build p.1 p.2 ≤ a ∧ a < pixelBase s.build p.1 p.2 + 9
    · have := ih (s.writePixel q.1 q.2 r g b) hw' (by rw [State.inMemory_congr hb]; exact hin) (by rw [hb]; exact hps)
      rwa [hb] at this
    · have h1 : (fillPixels ps r g b (s.writePixel q.1 q.2 r g b)).readCell a =
          (s.writePixel q.1 q.2 r g b).readCell a :=
        readCell_fillPixels_outside _ _ _ _ _ (by rw [hb]; exact fun p hp hc => hps ⟨p, hp, hc⟩)
      refine h1.trans (readCell_writePixel_inside s hw q.1 q.2 r g b hin ?_)
      obtain ⟨p, hp, hc⟩ := h
      rcases List.mem_cons.1 hp with rfl | hp
      · exact hc
      · exact absurd ⟨p, hp, hc⟩ hps

/-- What RECT's fill is, as a fold over the clipped pixels. -/
theorem State.fillRect_eq (s : State) (r g b px py w h : Int) :
    s.fillRect r g b px py w h = fillPixels (clippedPixels s.build px py w h) r g b s := rfl

section push
variable (s : State) (v : Int)
@[simp] theorem State.push_pc : (s.push v).pc = s.pc := by simp [State.push]
@[simp] theorem State.push_halted : (s.push v).halted = s.halted := by simp [State.push]
@[simp] theorem State.push_portMx : (s.push v).portMx = s.portMx := by simp [State.push]
@[simp] theorem State.push_portMy : (s.push v).portMy = s.portMy := by simp [State.push]
@[simp] theorem State.push_portClick : (s.push v).portClick = s.portClick := by simp [State.push]
@[simp] theorem State.push_heldKeys : (s.push v).heldKeys = s.heldKeys := by simp [State.push]
@[simp] theorem State.push_build : (s.push v).build = s.build := by simp [State.push]
@[simp] theorem State.push_schedule : (s.push v).schedule = s.schedule := by simp [State.push]
theorem State.push_readReg (r : Reg) :
    (s.push v).readReg r = if r = s.build.spIndex then clamp (s.readReg s.build.spIndex - 15) else s.readReg r := by
  simp only [State.push, State.memWrite_readReg, State.readReg_writeReg]
/-- A cell the push does not write reads as before. -/
theorem State.push_readCell_outside {a : Int}
    (h : ¬(clamp (s.readReg s.build.spIndex - 15) ≤ a ∧
      a < clamp (s.readReg s.build.spIndex - 15) + (s.build.callPushLen : Int))) :
    (s.push v).readCell a = s.readCell a :=
  (State.readCell_memWrite_outside _ v h).trans (State.writeReg_readCell s _ _ a)
end push

theorem State.push_mem_wf {s : State} (h : s.mem.wf) (v : Int) : (s.push v).mem.wf :=
  State.writeTrits_mem_wf (s := s.writeReg s.build.spIndex (clamp (s.readReg s.build.spIndex - 15))) h _ _

theorem State.push_mem_lt {s : State} (h : ∀ c ∈ s.mem, c.1 < s.build.memSize) (v : Int) :
    ∀ c ∈ (s.push v).mem, c.1 < (s.push v).build.memSize :=
  State.writeTrits_mem_lt (s := s.writeReg s.build.spIndex (clamp (s.readReg s.build.spIndex - 15))) h _ _

end Sys2Proof.Machine
end

