-- ==== Sys2Proof/Laws/Loader.lean ====
section
/-! SUPPORT. What the loader's operations do: a record is one write of fifteen trits, an image one write of fifteen trits a
record, and a launch sets every other part of the machine. -/

namespace Sys2Proof.Machine

/-- The fifteen trits of a record, each field truncated to its cells (30_encoding.md R74). -/
def recordTrits (r : ImageRecord) : List Trit := encodeFields r.opcode r.arg1 r.arg2

@[simp] theorem recordTrits_length (r : ImageRecord) : (recordTrits r).length = 15 := by
  simp [recordTrits, encodeFields]

/-- The trits of an image. -/
def imageTrits (im : List ImageRecord) : List Trit := im.flatMap recordTrits

theorem imageTrits_cons (r : ImageRecord) (im : List ImageRecord) :
    imageTrits (r :: im) = recordTrits r ++ imageTrits im := rfl

@[simp] theorem imageTrits_length (im : List ImageRecord) : (imageTrits im).length = 15 * im.length := by
  induction im with
  | nil => rfl
  | cons r im ih =>
    rw [imageTrits_cons, List.length_append, recordTrits_length, ih, List.length_cons]
    ring

theorem State.writeRecord_eq (s : State) (c : Int) (r : ImageRecord) :
    s.writeRecord c r = s.writeTrits c (recordTrits r) := by
  rw [recordTrits, encodeFields, State.writeTrits_append, State.writeTrits_append]
  simp only [List.length_append, balancedTrits_length]
  rfl

theorem State.writeImage_eq (s : State) (c : Int) (im : List ImageRecord) :
    s.writeImage c im = s.writeTrits c (imageTrits im) := by
  induction im generalizing s c with
  | nil => rfl
  | cons r im ih =>
    rw [State.writeImage, ih, State.writeRecord_eq, imageTrits_cons, State.writeTrits_append, recordTrits_length]
    rfl

theorem State.readCell_clearWindow (s : State) (a : Int) :
    s.clearWindow.readCell a =
      if (s.build.clearLo : Int) ≤ a ∧ a < (s.build.clearHi : Int) then .zero else s.readCell a := by
  have hb : s.clearWindow.inMemory a = s.inMemory a := rfl
  unfold State.readCell
  rw [hb]
  by_cases h : s.inMemory a = true
  · have h0 := (s.inMemory_iff a).1 h
    rw [if_pos h, if_pos h]
    show (s.mem.clear _ _).read _ = _
    rw [Memory.read_clear]
    by_cases hw : (s.build.clearLo : Int) ≤ a ∧ a < (s.build.clearHi : Int)
    · rw [if_pos hw, if_pos (by omega)]; rfl
    · rw [if_neg hw, if_neg (by omega)]
  · rw [if_neg h, if_neg h, ite_self]

section launchImage
variable (s : State) (im : List ImageRecord)
@[simp] theorem State.launchImage_pc : (s.launchImage im).pc = (s.build.bootAddr : Int) := rfl
@[simp] theorem State.launchImage_halted : (s.launchImage im).halted = false := rfl
@[simp] theorem State.launchImage_readReg (r : Reg) : (s.launchImage im).readReg r = 0 := by
  simp [State.launchImage]
@[simp] theorem State.launchImage_portMx : (s.launchImage im).portMx = s.portMx := by
  simp [State.launchImage, State.writeImage_eq]
@[simp] theorem State.launchImage_portMy : (s.launchImage im).portMy = s.portMy := by
  simp [State.launchImage, State.writeImage_eq]
@[simp] theorem State.launchImage_portClick : (s.launchImage im).portClick = s.portClick := by
  simp [State.launchImage, State.writeImage_eq]
@[simp] theorem State.launchImage_heldKeys : (s.launchImage im).heldKeys = s.heldKeys := by
  simp [State.launchImage, State.writeImage_eq]
@[simp] theorem State.launchImage_build : (s.launchImage im).build = s.build := by
  simp [State.launchImage, State.writeImage_eq]
@[simp] theorem State.launchImage_schedule : (s.launchImage im).schedule = s.schedule := by
  simp [State.launchImage, State.writeImage_eq]
/-- Memory after a launch: the image's trits written over the cleared window. -/
theorem State.launchImage_readCell (a : Int) :
    (s.launchImage im).readCell a =
      (((s.setHalted true).clearWindow).writeTrits (s.build.bootAddr : Int) (imageTrits im)).readCell a := by
  simp [State.launchImage, State.writeImage_eq]
theorem State.launchImage_mem :
    (s.launchImage im).mem =
      (((s.setHalted true).clearWindow).writeTrits (s.build.bootAddr : Int) (imageTrits im)).mem := by
  simp [State.launchImage, State.writeImage_eq]
end launchImage

theorem State.launchImage_mem_wf {s : State} (h : s.mem.wf) (im : List ImageRecord) : (s.launchImage im).mem.wf := by
  rw [State.launchImage_mem]
  exact State.writeTrits_mem_wf (Memory.clear_wf h _ _) _ _

theorem State.launchImage_mem_lt {s : State} (h : ∀ c ∈ s.mem, c.1 < s.build.memSize) (im : List ImageRecord) :
    ∀ c ∈ (s.launchImage im).mem, c.1 < (s.launchImage im).build.memSize := by
  rw [State.launchImage_mem, State.launchImage_build]
  have := State.writeTrits_mem_lt (s := (s.setHalted true).clearWindow) (fun c hc => h c (Memory.mem_clear hc))
    (s.build.bootAddr : Int) (imageTrits im)
  intro c hc
  have := this c hc
  simpa using this

end Sys2Proof.Machine
end

