-- ==== Sys2Proof/Laws/PerInstr.lean ====
section
/-! SUPPORT. Statements made of every instruction as syntax, one lemma per constructor of Instr. -/

/-- The dispatch of the decoder gives back the instruction whose fields it is given (30_encoding.md R66). -/
def Sys2Proof.Laws.FieldsRoundTrip.Statement (i : Sys2Proof.Instr) : Prop :=
  i.wf = true → Sys2Proof.decodeFields i.opcodeNumber i.op1Field i.op2Field = i

/-- The fields of a well-formed instruction fit their trits (30_encoding.md R61). -/
def Sys2Proof.Laws.FieldsFit.Statement (i : Sys2Proof.Instr) : Prop :=
  i.wf = true → (-40 ≤ i.opcodeNumber ∧ i.opcodeNumber ≤ 40) ∧ (-121 ≤ i.op1Field ∧ i.op1Field ≤ 121) ∧
    (-364 ≤ i.op2Field ∧ i.op2Field ≤ 364)

namespace Sys2Proof.Laws

theorem FieldsRoundTrip.halt (op1 op2 : Int) : FieldsRoundTrip.Statement (.halt op1 op2) := fun _ => rfl
theorem FieldsRoundTrip.add (op1 op2 : Int) : FieldsRoundTrip.Statement (.add op1 op2) := fun _ => rfl
theorem FieldsRoundTrip.sub (op1 op2 : Int) : FieldsRoundTrip.Statement (.sub op1 op2) := fun _ => rfl
theorem FieldsRoundTrip.mul (op1 op2 : Int) : FieldsRoundTrip.Statement (.mul op1 op2) := fun _ => rfl
theorem FieldsRoundTrip.div (op1 op2 : Int) : FieldsRoundTrip.Statement (.div op1 op2) := fun _ => rfl
theorem FieldsRoundTrip.neg (op1 op2 : Int) : FieldsRoundTrip.Statement (.neg op1 op2) := fun _ => rfl
theorem FieldsRoundTrip.set (op1 op2 : Int) : FieldsRoundTrip.Statement (.set op1 op2) := fun _ => rfl
theorem FieldsRoundTrip.cpy (op1 op2 : Int) : FieldsRoundTrip.Statement (.cpy op1 op2) := fun _ => rfl
theorem FieldsRoundTrip.jmp (op1 op2 : Int) : FieldsRoundTrip.Statement (.jmp op1 op2) := fun _ => rfl
theorem FieldsRoundTrip.brn (op1 op2 : Int) : FieldsRoundTrip.Statement (.brn op1 op2) := fun _ => rfl
theorem FieldsRoundTrip.brp (op1 op2 : Int) : FieldsRoundTrip.Statement (.brp op1 op2) := fun _ => rfl
theorem FieldsRoundTrip.tri (op1 op2 : Int) : FieldsRoundTrip.Statement (.tri op1 op2) := fun _ => rfl
theorem FieldsRoundTrip.call (op1 op2 : Int) : FieldsRoundTrip.Statement (.call op1 op2) := fun _ => rfl
theorem FieldsRoundTrip.rect (op1 op2 : Int) : FieldsRoundTrip.Statement (.rect op1 op2) := fun _ => rfl
theorem FieldsRoundTrip.pollMouse (op1 op2 : Int) : FieldsRoundTrip.Statement (.pollMouse op1 op2) := fun _ => rfl
theorem FieldsRoundTrip.pollKey (op1 op2 : Int) : FieldsRoundTrip.Statement (.pollKey op1 op2) := fun _ => rfl
theorem FieldsRoundTrip.unknownOpcode (opcode op1 op2 : Int) :
    FieldsRoundTrip.Statement (.unknownOpcode opcode op1 op2) := by
  intro h
  have hn : opcode ∉ assignedOpcodes := by
    simp only [Instr.wf, Bool.and_eq_true, Bool.not_eq_true', List.contains_eq_mem, decide_eq_false_iff_not] at h
    exact h.1.1.2
  simp only [assignedOpcodes, List.mem_cons, List.not_mem_nil, or_false, not_or] at hn
  simp [decodeFields, Instr.opcodeNumber, Instr.op1Field, Instr.op2Field, hn]

/-- The operand checks that `Instr.wf` makes of an assigned opcode. -/
theorem fitsOperands {op1 op2 : Int} (h : (fitsOp1 op1 && fitsOp2 op2) = true) :
    (-121 ≤ op1 ∧ op1 ≤ 121) ∧ (-364 ≤ op2 ∧ op2 ≤ 364) := by
  simpa [fitsOp1, fitsOp2] using h

theorem FieldsFit.halt (op1 op2 : Int) : FieldsFit.Statement (.halt op1 op2) :=
  fun h => ⟨⟨by norm_num [Instr.opcodeNumber], by norm_num [Instr.opcodeNumber]⟩, fitsOperands h⟩
theorem FieldsFit.add (op1 op2 : Int) : FieldsFit.Statement (.add op1 op2) :=
  fun h => ⟨⟨by norm_num [Instr.opcodeNumber], by norm_num [Instr.opcodeNumber]⟩, fitsOperands h⟩
theorem FieldsFit.sub (op1 op2 : Int) : FieldsFit.Statement (.sub op1 op2) :=
  fun h => ⟨⟨by norm_num [Instr.opcodeNumber], by norm_num [Instr.opcodeNumber]⟩, fitsOperands h⟩
theorem FieldsFit.mul (op1 op2 : Int) : FieldsFit.Statement (.mul op1 op2) :=
  fun h => ⟨⟨by norm_num [Instr.opcodeNumber], by norm_num [Instr.opcodeNumber]⟩, fitsOperands h⟩
theorem FieldsFit.div (op1 op2 : Int) : FieldsFit.Statement (.div op1 op2) :=
  fun h => ⟨⟨by norm_num [Instr.opcodeNumber], by norm_num [Instr.opcodeNumber]⟩, fitsOperands h⟩
theorem FieldsFit.neg (op1 op2 : Int) : FieldsFit.Statement (.neg op1 op2) :=
  fun h => ⟨⟨by norm_num [Instr.opcodeNumber], by norm_num [Instr.opcodeNumber]⟩, fitsOperands h⟩
theorem FieldsFit.set (op1 op2 : Int) : FieldsFit.Statement (.set op1 op2) :=
  fun h => ⟨⟨by norm_num [Instr.opcodeNumber], by norm_num [Instr.opcodeNumber]⟩, fitsOperands h⟩
theorem FieldsFit.cpy (op1 op2 : Int) : FieldsFit.Statement (.cpy op1 op2) :=
  fun h => ⟨⟨by norm_num [Instr.opcodeNumber], by norm_num [Instr.opcodeNumber]⟩, fitsOperands h⟩
theorem FieldsFit.jmp (op1 op2 : Int) : FieldsFit.Statement (.jmp op1 op2) :=
  fun h => ⟨⟨by norm_num [Instr.opcodeNumber], by norm_num [Instr.opcodeNumber]⟩, fitsOperands h⟩
theorem FieldsFit.brn (op1 op2 : Int) : FieldsFit.Statement (.brn op1 op2) :=
  fun h => ⟨⟨by norm_num [Instr.opcodeNumber], by norm_num [Instr.opcodeNumber]⟩, fitsOperands h⟩
theorem FieldsFit.brp (op1 op2 : Int) : FieldsFit.Statement (.brp op1 op2) :=
  fun h => ⟨⟨by norm_num [Instr.opcodeNumber], by norm_num [Instr.opcodeNumber]⟩, fitsOperands h⟩
theorem FieldsFit.tri (op1 op2 : Int) : FieldsFit.Statement (.tri op1 op2) :=
  fun h => ⟨⟨by norm_num [Instr.opcodeNumber], by norm_num [Instr.opcodeNumber]⟩, fitsOperands h⟩
theorem FieldsFit.call (op1 op2 : Int) : FieldsFit.Statement (.call op1 op2) :=
  fun h => ⟨⟨by norm_num [Instr.opcodeNumber], by norm_num [Instr.opcodeNumber]⟩, fitsOperands h⟩
theorem FieldsFit.rect (op1 op2 : Int) : FieldsFit.Statement (.rect op1 op2) :=
  fun h => ⟨⟨by norm_num [Instr.opcodeNumber], by norm_num [Instr.opcodeNumber]⟩, fitsOperands h⟩
theorem FieldsFit.pollMouse (op1 op2 : Int) : FieldsFit.Statement (.pollMouse op1 op2) :=
  fun h => ⟨⟨by norm_num [Instr.opcodeNumber], by norm_num [Instr.opcodeNumber]⟩, fitsOperands h⟩
theorem FieldsFit.pollKey (op1 op2 : Int) : FieldsFit.Statement (.pollKey op1 op2) :=
  fun h => ⟨⟨by norm_num [Instr.opcodeNumber], by norm_num [Instr.opcodeNumber]⟩, fitsOperands h⟩
theorem FieldsFit.unknownOpcode (opcode op1 op2 : Int) : FieldsFit.Statement (.unknownOpcode opcode op1 op2) := by
  intro h
  simp only [Instr.wf, Bool.and_eq_true, fitsOpcode, fitsOp1, fitsOp2, decide_eq_true_eq] at h
  exact ⟨h.1.1.1, h.1.2, h.2⟩

end Sys2Proof.Laws
end

