-- ==== Sys2Proof/Laws/Step.lean ====
section
/-! SUPPORT. What a transition can be, said once, and what the shared shapes of the meanings do. -/

namespace Sys2Proof.Machine

/-- The four kinds of transition: the CPU's, or one move of another agent. -/
theorem step_cases {s t : State} (h : step s = .next t) :
    (s.schedule = [] ∧ cpuStep s = .next t) ∨
    (∃ ms, s.schedule = .cpuStep :: ms ∧ cpuStep { s with schedule := ms } = .next t) ∨
    (∃ w ms, s.schedule = .bridge w :: ms ∧ t = State.bridgeWrite { s with schedule := ms } w) ∨
    (∃ im ms, s.schedule = .launch im :: ms ∧ t = State.launch { s with schedule := ms } im) ∨
    (∃ ms, s.schedule = .render :: ms ∧ t = { s with schedule := ms }) := by
  unfold step at h
  split at h
  · next hs => exact .inl ⟨hs, h⟩
  · next ms hs => exact .inr (.inl ⟨ms, hs, h⟩)
  · next w ms hs => exact .inr (.inr (.inl ⟨w, ms, hs, by injection h with h; exact h.symm⟩))
  · next im ms hs => exact .inr (.inr (.inr (.inl ⟨im, ms, hs, by injection h with h; exact h.symm⟩)))
  · next ms hs => exact .inr (.inr (.inr (.inr ⟨ms, hs, by injection h with h; exact h.symm⟩)))

/-- The CPU's transition: nothing when Halted, else the fetched instruction (41_step_cycle.md R100, R101). -/
theorem cpuStep_cases {s t : State} (h : cpuStep s = .next t) :
    (s.halted = true ∧ t = s) ∨ (s.halted = false ∧ exec s.fetch s = .next t) := by
  unfold cpuStep at h
  split at h
  · next hh => exact .inl ⟨hh, by injection h with h; exact h.symm⟩
  · next hh => exact .inr ⟨by simpa using hh, h⟩

/-- Decoding the fifteen cells at `pc` is what the fetch does, field by field (20_memory.md R42). -/
theorem decode_fetchedTrits (s : State) : decode (s.readTrits s.pc 15) = .ok s.fetch := by
  have h4 : s.readTrits s.pc 15 = s.readTrits s.pc 4 ++ s.readTrits (s.pc + 4) 11 :=
    State.readTrits_append s s.pc 4 11
  have h5 : s.readTrits (s.pc + 4) 11 = s.readTrits (s.pc + 4) 5 ++ s.readTrits (s.pc + 9) 6 := by
    have := State.readTrits_append s (s.pc + 4) 5 6
    rw [this]
    congr 2
    push_cast
    ring
  unfold decode State.fetch State.memRead
  rw [if_pos (State.readTrits_length _ _ _), h4, h5]
  rfl

/-- One more step of a run whose first step goes on. -/
theorem run_succ_of_next {k : Nat} {s t : State} (h : step s = .next t) :
    Host.Core.run Sys2Proof.core (k + 1) s = Host.Core.run Sys2Proof.core k t := by
  have h' : Sys2Proof.core.step s = .next t := h
  simp only [Host.Core.run, h']

/-- The transition of a running machine that no other agent moves before. -/
theorem step_of_running {s : State} (hs : s.schedule = []) (hh : s.halted = false) : step s = exec s.fetch s := by
  unfold step; rw [hs]; unfold cpuStep; rw [hh]; rfl

section binaryOp
variable (f : Int → Int → Int) (op1 op2 : Int) (s : State)
/-- The arithmetic shape: the destination gets the function of the old operands, nothing else but `pc` changes. -/
theorem binaryOp_writes :
    WritesRegister (ri op1) (f (s.readReg (ri op1)) (s.readReg (ri op2))) s (binaryOp f op1 op2 s) :=
  ⟨State.readReg_writeReg_same _ _ _, fun _ hr => State.readReg_writeReg_ne _ _ _ hr, rfl, rfl, fun _ => rfl,
    rfl, rfl, rfl, rfl, rfl, rfl⟩
/-- The load shape. -/
theorem loadReg_writes (v : Int) : WritesRegister (ri op1) v s (loadReg op1 v s) :=
  ⟨State.readReg_writeReg_same _ _ _, fun _ hr => State.readReg_writeReg_ne _ _ _ hr, rfl, rfl, fun _ => rfl,
    rfl, rfl, rfl, rfl, rfl, rfl⟩
theorem jump_movesPc (p : Int) : MovesPc p s (s.jump p) :=
  ⟨rfl, fun _ => rfl, rfl, fun _ => rfl, rfl, rfl, rfl, rfl, rfl, rfl⟩
theorem advance_movesPc : MovesPc (s.pc + 15) s s.advance :=
  ⟨rfl, fun _ => rfl, rfl, fun _ => rfl, rfl, rfl, rfl, rfl, rfl, rfl⟩
/-- The branch shape: to the target or past the instruction, nothing but `pc` changes. -/
theorem branchIf_movesPc (c : Bool) : MovesPc (if c then op2 else s.pc + 15) s (branchIf c op2 s) := by
  cases c
  · exact advance_movesPc s
  · exact jump_movesPc s op2
end binaryOp

/-- `binaryOp` as a record of fields, for a proof that needs memory itself and not only its reads. -/
@[simp] theorem binaryOp_mem (f : Int → Int → Int) (op1 op2 : Int) (s : State) : (binaryOp f op1 op2 s).mem = s.mem := rfl
@[simp] theorem loadReg_mem (op1 v : Int) (s : State) : (loadReg op1 v s).mem = s.mem := rfl
@[simp] theorem branchIf_mem (c : Bool) (op2 : Int) (s : State) : (branchIf c op2 s).mem = s.mem := by cases c <;> rfl

/-- `sign` is -1, 0 or 1. -/
theorem sign_cases (v : Int) : (v < 0 ∧ sign v = -1) ∨ (v = 0 ∧ sign v = 0) ∨ (0 < v ∧ sign v = 1) := by
  unfold sign
  rcases lt_trichotomy v 0 with h | h | h
  · exact .inl ⟨h, if_pos h⟩
  · exact .inr (.inl ⟨h, by rw [if_neg (by omega), if_pos h]⟩)
  · exact .inr (.inr ⟨h, by rw [if_neg (by omega), if_neg (by omega)]⟩)

/-- What POLL_MOUSE reads is in a register's range, whatever the bridge wrote (45_io_instructions.md R139). -/
theorem mouseValue_range (s : State) (sel : Option MousePort) : inWordRange (mouseValue s sel) := by
  unfold mouseValue
  split
  · exact clamp_range _
  · exact clamp_range _
  · exact clamp_range _
  · decide

/-- What POLL_KEY reads is 13 or 0. -/
theorem keyValue_cases (s : State) (code : Int) :
    (s.keyHeld code = true ∧ keyValue s code = 13) ∨ (s.keyHeld code = false ∧ keyValue s code = 0) := by
  unfold keyValue
  cases s.keyHeld code
  · exact .inr ⟨rfl, rfl⟩
  · exact .inl ⟨rfl, rfl⟩

section bridgeWrite
variable (s : State) (w : PortWrite)
@[simp] theorem State.bridgeWrite_x : (s.bridgeWrite w).x = s.x := by unfold State.bridgeWrite; split <;> rfl
@[simp] theorem State.bridgeWrite_pc : (s.bridgeWrite w).pc = s.pc := by unfold State.bridgeWrite; split <;> rfl
@[simp] theorem State.bridgeWrite_halted : (s.bridgeWrite w).halted = s.halted := by
  unfold State.bridgeWrite; split <;> rfl
@[simp] theorem State.bridgeWrite_mem : (s.bridgeWrite w).mem = s.mem := by unfold State.bridgeWrite; split <;> rfl
@[simp] theorem State.bridgeWrite_build : (s.bridgeWrite w).build = s.build := by
  unfold State.bridgeWrite; split <;> rfl
@[simp] theorem State.bridgeWrite_schedule : (s.bridgeWrite w).schedule = s.schedule := by
  unfold State.bridgeWrite; split <;> rfl
end bridgeWrite

/-- Which codes are down after one is pressed. -/
theorem mem_insertKey {c k : Int} {ks : List Int} : k ∈ insertKey c ks ↔ k = c ∨ k ∈ ks := by
  induction ks with
  | nil => simp [insertKey]
  | cons d ks ih =>
    simp only [insertKey]
    split
    · simp
    · split
      · next h => subst h; simp
      · simp only [List.mem_cons, ih]; tauto

/-- Pressing a key keeps the list strictly rising. -/
theorem insertKey_pairwise {c : Int} {ks : List Int} (h : ks.Pairwise (fun a b => a < b)) :
    (insertKey c ks).Pairwise (fun a b => a < b) := by
  induction ks with
  | nil => simp [insertKey]
  | cons d ks ih =>
    obtain ⟨hd, hks⟩ := List.pairwise_cons.1 h
    simp only [insertKey]
    split
    · next hc =>
      refine List.pairwise_cons.2 ⟨?_, h⟩
      intro k hk
      rcases List.mem_cons.1 hk with rfl | hk
      · exact hc
      · exact lt_trans hc (hd k hk)
    · next hc =>
      split
      · exact h
      · next hne =>
        refine List.pairwise_cons.2 ⟨?_, ih hks⟩
        intro k hk
        rcases mem_insertKey.1 hk with rfl | hk
        · omega
        · exact hd k hk

theorem mem_removeKey {c k : Int} {ks : List Int} : k ∈ removeKey c ks ↔ k ≠ c ∧ k ∈ ks := by
  simp [removeKey, and_comm]

theorem removeKey_pairwise {c : Int} {ks : List Int} (h : ks.Pairwise (fun a b => a < b)) :
    (removeKey c ks).Pairwise (fun a b => a < b) := List.Pairwise.filter _ h

end Sys2Proof.Machine
end

