-- ==== Sys2Proof/Tests/Slice0.lean ====
section
/-! SUPPORT. Tests of the model on values that the spec works out (95_test_vectors.md and the examples of the rules), and
for every statement with hypotheses a witness that meets them. -/

namespace Sys2Proof.Tests

open Sys2Proof.Machine

/-! Helpers -/

/-- The trits of a string in the spec's writing; its spaces are for reading only (00_scope.md R9). -/
def cells (s : String) : List Trit :=
  s.toList.filterMap (fun c =>
    if c = '+' then some .pos else if c = '-' then some .neg else if c = '0' then some .zero else none)

/-- The state after power-on with some registers written. -/
def regs (rs : List (Reg × Int)) : State := rs.foldl (fun s r => s.writeReg r.1 r.2) State.reset

/-- A state with trits stored at an address, about to fetch there. -/
def placed (a : Int) (s : String) (t : State) : State := (t.writeTrits a (cells s)).jump a

/-- The state of an outcome that goes on. -/
def ran (o : Host.Outcome State Fault Refusal) : Option State :=
  match o with
  | .next t => some t
  | .fault _ => none
  | .refused _ => none

/-- One register and `pc` after a step. -/
def regAfter (r : Reg) (s : State) : Option (Int × Int) := (ran (step s)).map (fun t => (t.readReg r, t.pc))

/-- `pc` and `halted` after a step. -/
def pcAfter (s : State) : Option (Int × Bool) := (ran (step s)).map (fun t => (t.pc, t.halted))

/-- H(50) (00_scope.md R10). -/
abbrev H : Int := 358948993845926294385124

/-! WellFormed: one ill-formed term for each check. -/

theorem test_wf_refuses_op1 : (Instr.set 122 5).wf = false ∧ (Instr.neg (-122) 0).wf = false := by decide
theorem test_wf_refuses_op2 : (Instr.jmp 0 365).wf = false ∧ (Instr.pollKey 0 (-365)).wf = false := by decide
theorem test_wf_refuses_opcode_range : (Instr.unknownOpcode 45 0 0).wf = false := by decide
theorem test_wf_refuses_assigned_opcode : (Instr.unknownOpcode 11 0 0).wf = false := by decide
theorem test_wf_refuses_no_op_operands :
    (Instr.unknownOpcode 5 122 0).wf = false ∧ (Instr.unknownOpcode 5 0 365).wf = false := by decide
theorem test_wf_accepts_bounds :
    (Instr.set 121 364).wf = true ∧ (Instr.pollKey (-121) (-364)).wf = true ∧
      (Instr.unknownOpcode (-40) 0 0).wf = true := by decide

/-! Decode: for every constructor, fifteen cells written out from 30_encoding.md section 3 (the words of
95_test_vectors.md where it has one). -/

theorem test_decode_halt : decode (cells "0000 +++++ ------") = .ok (.halt 121 (-364)) := by decide
theorem test_decode_add : decode (cells "+000 +00+0 -00000") = .ok (.add 28 (-1)) := by decide
theorem test_decode_sub : decode (cells "-+00 00000 +00000") = .ok (.sub 0 1) := by decide
theorem test_decode_mul : decode (cells "0+00 -+000 0+0000") = .ok (.mul 2 3) := by decide
theorem test_decode_div : decode (cells "++00 00000 +00000") = .ok (.div 0 1) := by decide
theorem test_decode_neg : decode (cells "0-+0 ++000 000000") = .ok (.neg 4 0) := by decide
theorem test_decode_set : decode (cells "-++0 00000 --+000") = .ok (.set 0 5) := by decide
theorem test_decode_cpy : decode (cells "0++0 -00+0 +00000") = .ok (.cpy 26 1) := by decide
theorem test_decode_jmp : decode (cells "-+-+ 00000 0-0-00") = .ok (.jmp 0 (-30)) := by decide
theorem test_decode_brn : decode (cells "0+-+ 00000 0-+-+0") = .ok (.brn 0 60) := by decide
theorem test_decode_brp : decode (cells "++-+ 0+000 0-0++0") = .ok (.brp 3 105) := by decide
theorem test_decode_tri : decode (cells "--0+ 00000 +00000") = .ok (.tri 0 1) := by decide
theorem test_decode_call : decode (cells "0-0+ 00000 0-+-+0") = .ok (.call 0 60) := by decide
theorem test_decode_rect : decode (cells "0+0+ 00000 000000") = .ok (.rect 0 0) := by decide
theorem test_decode_poll_mouse : decode (cells "++0+ 0+000 -+0000") = .ok (.pollMouse 3 2) := by decide
theorem test_decode_poll_key : decode (cells "--++ --000 -++-+0") = .ok (.pollKey (-4) 65) := by decide
theorem test_decode_unknown : decode (cells "00-- 00000 000000") = .ok (.unknownOpcode (-36) 0 0) := by decide
theorem test_decode_refuses_fourteen : decode (cells "0000 00000 00000") = .error .notFifteenTrits := by decide
theorem test_encode_set : encode (.set 28 7) = cells "-++0 +00+0 +-+000" := by decide
theorem test_encode_truncates : encodeFields 20 0 375 = cells "-+-+ 00000 0-0---" := by decide

/-! The codec (95_test_vectors.md sections 2.1 to 2.3) -/

theorem test_codec_minus_seven : balancedTrits 3 (-7) = cells "-+-" ∧ tritsValue (cells "-+-") = -7 := by decide
theorem test_codec_truncates : balancedTrits 5 122 = cells "-----" ∧ balancedTrits 4 100 = cells "+0-+" := by decide
theorem test_clamp_wraps : clamp (H + 1) = -H ∧ clamp (-H - 1) = H ∧ clamp (2 * H) = -1 := by decide
theorem test_clamp_square : clamp (H * H) = -179474496922963147192562 := by decide
theorem test_write_past_the_end : (State.reset.memWrite 59047 4 40).memRead 59047 4 = 4 := by decide
theorem test_write_below_zero : (State.reset.memWrite (-2) 3 13).mem = [(0, .pos)] := by decide

/-! One step of each instruction, from its cells -/

theorem test_add : regAfter 0 (placed 0 "+000 00000 +00000" (regs [(0, 5), (1, 3)])) = some (8, 15) := by decide
theorem test_add_wraps : regAfter 0 (placed 0 "+000 00000 +00000" (regs [(0, H), (1, 1)])) = some (-H, 15) := by decide
theorem test_sub : regAfter 0 (placed 0 "-+00 00000 +00000" (regs [(0, 1), (1, 3)])) = some (-2, 15) := by decide
theorem test_sub_wraps : regAfter 0 (placed 0 "-+00 00000 +00000" (regs [(0, -H), (1, 1)])) = some (H, 15) := by decide
theorem test_mul : regAfter 2 (placed 0 "0+00 -+000 0+0000" (regs [(2, -7), (3, 6)])) = some (-42, 15) := by decide
theorem test_mul_wraps :
    regAfter 0 (placed 0 "0+00 00000 +00000" (regs [(0, H), (1, 3)])) = some (358948993845926294385123, 15) := by decide
theorem test_div_truncates : regAfter 0 (placed 0 "++00 00000 +00000" (regs [(0, -7), (1, 2)])) = some (-3, 15) := by
  decide
theorem test_div_by_zero : regAfter 0 (placed 0 "++00 00000 +00000" (regs [(0, 9)])) = some (0, 15) := by decide
theorem test_neg : regAfter 4 (placed 0 "0-+0 ++000 000000" (regs [(4, 13)])) = some (-13, 15) := by decide
theorem test_neg_across_the_end :
    regAfter 2 ((placed 59043 "0-+0 -+" (regs [(2, 5)]))) = some (-5, 59058) := by decide
theorem test_tri : regAfter 0 (placed 0 "--0+ 00000 +00000" (regs [(0, 5), (1, 9)])) = some (-1, 15) := by decide
theorem test_tri_is_exact : regAfter 0 (placed 0 "--0+ 00000 +00000" (regs [(0, H), (1, -H)])) = some (1, 15) := by
  decide
theorem test_set : regAfter 26 (placed 0 "-++0 -0000 00+000" State.reset) = some (9, 15) := by decide
theorem test_set_ignores_high_trits : regAfter 0 (placed 0 "-++0 000+- ------" State.reset) = some (-364, 15) := by decide
theorem test_cpy : regAfter 2 (placed 0 "0++0 -+000 -00000" (regs [(26, 9)])) = some (9, 15) := by decide
theorem test_halt : pcAfter (placed 45 "0000 00000 000000" State.reset) = some (60, true) := by decide
theorem test_jmp : pcAfter (placed 15 "-+-+ 00000 000000" State.reset) = some (0, false) := by decide
theorem test_jmp_negative : pcAfter (placed 0 "-+-+ 00000 0-0-00" State.reset) = some (-30, false) := by decide
theorem test_brn_taken : pcAfter (placed 30 "0+-+ 00000 0-+-+0" (regs [(0, -1)])) = some (60, false) := by decide
theorem test_brn_zero : pcAfter (placed 30 "0+-+ 00000 0-+-+0" State.reset) = some (45, false) := by decide
theorem test_brp_taken : pcAfter (placed 45 "++-+ 00000 0+0+00" (regs [(0, 2)])) = some (30, false) := by decide
theorem test_brp_negative : pcAfter (placed 45 "++-+ 00000 0+0+00" (regs [(0, -5)])) = some (60, false) := by decide
theorem test_call :
    (ran (step (placed 15 "0-0+ 00000 0-+-+0" (regs [(26, 360)])))).map
      (fun t => (t.readReg 26, t.readTrits 345 15, t.pc)) = some (345, cells "0+0+00000000000", 60) := by decide +kernel
theorem test_call_past_the_end :
    (ran (step (placed 15 "0-0+ 00000 0-+-+0" (regs [(26, 59055)])))).map
      (fun t => (t.readReg 26, t.readTrits 59040 15, t.pc)) = some (59040, cells "0+0+00000000000", 60) := by decide +kernel
theorem test_rect :
    (ran (step (placed 0 "0+0+ 00000 000000" (regs [(0, 13), (2, -13), (3, 1), (5, 1), (6, 1)])))).map
      (fun t => (t.readTrits 6570 9, t.readTrits 6561 9, t.readTrits 6579 9, t.pc)) =
      some (cells "+++000---", cells "000000000", cells "000000000", 15) := by decide
theorem test_rect_clips_and_truncates :
    (ran (step (placed 0 "0+0+ 00000 000000"
        (regs [(0, 14), (2, -14), (3, -1), (4, 26), (5, 3), (6, 5)])))).map
      (fun t => (t.readTrits 12879 9, t.readTrits 12888 9, t.readTrits 12897 9)) =
      some (cells "---000+++", cells "---000+++", cells "000000000") := by decide
theorem test_poll_mouse :
    regAfter 3 (placed 0 "++0+ 0+000 000000" (State.reset.withPorts 17 (-4) 1 [65])) = some (17, 15) := by decide
theorem test_poll_mouse_clamps_and_no_port :
    regAfter 3 (placed 0 "++0+ 0+000 000000" (State.reset.withPorts (H + 1) (-4) 1 [65])) = some (-H, 15) ∧
      regAfter 3 (placed 0 "++0+ 0+000 0+0000" ((regs [(3, 7)]).withPorts 17 (-4) 1 [65])) = some (0, 15) := by decide +kernel
theorem test_poll_key_down :
    regAfter 7 (placed 0 "--++ +-+00 -++-+0" (State.reset.withPorts 17 (-4) 1 [65])) = some (13, 15) := by decide
theorem test_poll_key_up :
    regAfter 7 (placed 0 "--++ +-+00 0++-+0" (State.reset.withPorts 17 (-4) 1 [65])) = some (0, 15) := by decide
theorem test_unknown_opcode : step (placed 0 "---- ----- ------" State.reset) =
    .next { placed 0 "---- ----- ------" State.reset with pc := 15 } := by rfl

/-! The agents around the core -/

theorem test_bridge_key :
    (ran (step { State.reset with heldKeys := [3, 65], schedule := [.bridge (.key 13 true)] })).map
      (fun t => (t.heldKeys, t.schedule)) = some ([3, 13, 65], []) := by decide
theorem test_launch_scenario_a :
    (ran (step { (regs [(0, 8)]).setHalted true with
        schedule := [.launch (some [⟨11, 0, 5⟩, ⟨11, 1, 3⟩])] })).map
      (fun t => (t.readTrits 0 15, t.readTrits 15 15, t.readReg 0, t.pc, t.halted)) =
      some (cells "-++0 00000 --+000", cells "-++0 +0000 0+0000", 0, 0, false) := by decide +kernel
theorem test_assembler_truncates :
    (State.reset.launchText (some ["JMP 0 375".toList])).readTrits 0 15 = cells "-+-+ 00000 0-0---" := by decide +kernel

/-! The host's numbers (log entry 10) -/

/-- `SET 0 5`, the cells `-++0 00000 --+000`. -/
theorem test_table_word : decodeTableWord 32 0x680016 = some (.set 0 5) := by decide
theorem test_table_word_of_no_trit : decodeTableWord 32 3 = none := by decide
theorem test_placed_word_runs : regAfter 0 (State.reset.withFetchWord 32 0x680016) = some (5, 15) := by decide

/-! Witnesses: for every statement with hypotheses, values that meet them all; where it has several clauses, one for each,
at the ends of their ranges. -/

/-- A running state about to fetch `SET 0 5`. -/
abbrev setState : State := placed 0 "-++0 00000 --+000" State.reset

theorem witness_EncodeThenDecodeGivesInstruction :
    (Instr.set 121 (-364)).wf = true ∧ (Instr.unknownOpcode (-40) (-121) 364).wf = true := by decide
theorem witness_DecodeThenEncodeGivesTrits :
    (cells "-++0 00000 --+000").length = 15 ∧ (cells "0000 00000 00000").length ≠ 15 ∧
      (cells "0000 00000 0000000").length ≠ 15 := by decide
theorem witness_ClampIsBalancedResidue :
    -H ≤ -H ∧ -H ≤ H ∧ ((-H) - (H + 1)) % 717897987691852588770249 = 0 ∧
      (H - (-H - 1)) % 717897987691852588770249 = 0 := by decide
theorem witness_ClampIsARingReduction :
    inWordRange H ∧ inWordRange (-H) ∧ (1 : Int) ≤ 1 ∧ (1 : Int) ≤ ((3 ^ 50 : Nat) : Int) ∧
      ((3 ^ 50 : Nat) : Int) ≤ ((3 ^ 50 : Nat) : Int) := by decide
theorem witness_CodecRoundTrips :
    State.reset.mem.wf ∧ (∀ k : Nat, k < 4 → State.reset.inMemory (59045 + (k : Int)) = true) ∧
      (∀ k : Nat, k < 4 → State.reset.inMemory (0 + (k : Int)) = true) ∧
      -maxValue 4 ≤ -40 ∧ (40 : Int) ≤ maxValue 4 := by decide
theorem witness_EncodeTruncatesAndStaysInPlace :
    State.reset.mem.wf ∧ (∀ k : Nat, k < 4 → State.reset.inMemory (59045 + (k : Int)) = true) ∧
      ¬((59045 : Int) ≤ 59044 ∧ (59044 : Int) < 59045 + ((4 : Nat) : Int)) ∧
      ¬((0 : Int) ≤ -1 ∧ (-1 : Int) < (State.reset.build.memSize : Int)) ∧
      ¬((0 : Int) ≤ 59049 ∧ (59049 : Int) < (State.reset.build.memSize : Int)) := by decide
theorem witness_DecodeIsABijection :
    (cells "-+").length = (cells "-+").length ∧ tritsValue (cells "-+") = tritsValue (cells "-+") ∧
      -maxValue 3 ≤ -13 ∧ (-13 : Int) ≤ maxValue 3 ∧ -maxValue 3 ≤ 13 ∧ (13 : Int) ≤ maxValue 3 := by decide
theorem witness_DivWritesAdmissibleQuotient :
    (regs [(0, 9)]).readReg 1 = 0 ∧
      ((regs [(0, -12), (1, 4)]).readReg 1 ≠ 0 ∧
        (regs [(0, -12), (1, 4)]).readReg 1 ∣ (regs [(0, -12), (1, 4)]).readReg 0) ∧
      ((regs [(0, -7), (1, 2)]).readReg 1 ≠ 0 ∧ (regs [(0, -7), (1, 2)]).build.divRound = .towardZero) ∧
      ({ regs [(0, -7), (1, 2)] with build := { refBuild with divRound := .floored } } : State).readReg 1 ≠ 0 ∧
      inWordRange ((regs [(0, -H), (1, -1)]).readReg 0) := by decide
theorem witness_NegWritesNegation :
    inWordRange ((regs [(0, H)]).readReg 0) ∧ inWordRange ((regs [(0, -H)]).readReg 0) := by decide
theorem witness_TriComparesRegisters :
    (regs [(0, -H), (1, H)]).readReg 0 < (regs [(0, -H), (1, H)]).readReg 1 ∧
      (regs [(0, 4), (1, 4)]).readReg 0 = (regs [(0, 4), (1, 4)]).readReg 1 ∧
      (regs [(0, H), (1, -H)]).readReg 0 > (regs [(0, H), (1, -H)]).readReg 1 := by decide
theorem witness_SetLoadsImmediate : (-364 : Int) ≤ -364 ∧ (-364 : Int) ≤ 364 ∧ (364 : Int) ≤ 364 := by decide
theorem witness_BrnBranchesOnNegative :
    (regs [(0, -1)]).readReg (ri 0) < 0 ∧ ¬(regs [(0, 0)]).readReg (ri 0) < 0 := by decide
theorem witness_BrpBranchesOnPositive :
    (regs [(0, 1)]).readReg (ri 0) > 0 ∧ ¬(regs [(0, 0)]).readReg (ri 0) > 0 := by decide
/-- With the stack pointer at 59055 the push runs over the end of memory, at 360 it is wholly in memory. -/
theorem witness_CallPushesReturnAddress :
    (regs [(26, 59055)]).mem.wf ∧ (regs [(26, 360)]).mem.wf ∧
      (regs [(26, 59055)]).inMemory (clamp ((regs [(26, 59055)]).readReg 26 - 15) + 8) = true ∧
      (∀ k : Nat, k < 15 →
        (regs [(26, 360)]).inMemory (clamp ((regs [(26, 360)]).readReg 26 - 15) + (k : Int)) = true) ∧
      ¬(clamp ((regs [(26, 360)]).readReg 26 - 15) ≤ 344 ∧
        (344 : Int) < clamp ((regs [(26, 360)]).readReg 26 - 15) + ((15 : Nat) : Int)) ∧
      ¬(clamp ((regs [(26, 360)]).readReg 26 - 15) ≤ 360 ∧
        (360 : Int) < clamp ((regs [(26, 360)]).readReg 26 - 15) + ((15 : Nat) : Int)) := by decide
theorem witness_UnknownOpcodeOnlyAdvances :
    (placed 0 "---- 00000 000000" State.reset).schedule = [] ∧
      (placed 0 "---- 00000 000000" State.reset).halted = false ∧
      (placed 0 "---- 00000 000000" State.reset).memRead 0 4 ∉ assignedOpcodes ∧
      (placed 0 "++++ 00000 000000" State.reset).memRead 0 4 ∉ assignedOpcodes := by decide +kernel
theorem witness_RectPaintsClippedRectangle :
    (regs [(3, -1), (4, -1), (5, 28), (6, 28)]).mem.wf ∧ refBuild.fbEnd ≤ refBuild.memSize ∧
      pixelCovered refBuild (-1) (-1) 28 28 0 0 ∧ pixelCovered refBuild (-1) (-1) 28 28 26 26 ∧
      State.reset.inMemory (pixelBase refBuild 26 26 + ((8 : Nat) : Int)) = true ∧
      (∀ p q : Int, pixelCovered refBuild (-1) (-1) 28 28 p q →
        ¬(pixelBase refBuild p q ≤ 6560 ∧ (6560 : Int) < pixelBase refBuild p q + 9)) := by
  refine ⟨by decide, by decide, by decide, by decide, by decide, ?_⟩
  intro p q h
  simp only [pixelCovered, pixelBase, refBuild, refFbBase, refFbWidth, refFbHeight] at h ⊢
  omega
theorem witness_RectStaysInTheFramebuffer :
    ¬((refBuild.fbBase : Int) ≤ 6560 ∧ (6560 : Int) < (refBuild.fbEnd : Int)) ∧
      ¬((refBuild.fbBase : Int) ≤ 13122 ∧ (13122 : Int) < (refBuild.fbEnd : Int)) ∧
      (regs [(6, 3)]).readReg 5 ≤ 0 ∧ (regs [(5, 3)]).readReg 6 ≤ 0 := by decide
theorem witness_PollMouseReadsSelectedPort :
    State.reset.build.mouseSelect.lookup 0 = some .x ∧ State.reset.build.mouseSelect.lookup 1 = some .y ∧
      State.reset.build.mouseSelect.lookup 2 = some .click ∧ State.reset.build.mouseSelect.lookup 3 = none ∧
      State.reset.build.mouseSelect.lookup (-1) = none ∧ State.reset.build.mouseSelect = refMouseSelect ∧
      inWordRange (State.reset.withPorts H (-H) 1 []).portMx ∧ inWordRange (State.reset.withPorts H (-H) 1 []).portMy ∧
      inWordRange (State.reset.withPorts H (-H) 1 []).portClick := by decide
theorem witness_PollKeyReadsKey :
    (65 : Int) ∈ (State.reset.withPorts 0 0 0 [65]).heldKeys ∧
      (66 : Int) ∉ (State.reset.withPorts 0 0 0 [65]).heldKeys := by decide
theorem witness_StepRunsDecodedInstruction :
    setState.halted = false ∧ decode (setState.readTrits setState.pc 15) = .ok (.set 0 5) ∧ setState.schedule = [] ∧
      ({ setState with schedule := [.cpuStep, .render] } : State).schedule = .cpuStep :: [.render] := by decide
theorem witness_HaltedMachineIsFrozen :
    (State.reset.setHalted true).halted = true ∧ (State.reset.setHalted true).schedule = [] ∧
      ({ State.reset.setHalted true with schedule := [.cpuStep] } : State).schedule = .cpuStep :: [] := by decide
theorem witness_FetchOutsideMemoryHalts :
    (State.reset.jump 59049).schedule = [] ∧ (State.reset.jump 59049).halted = false ∧
      (State.reset.jump 59049).pc ≥ ((State.reset.jump 59049).build.memSize : Int) ∧
      (State.reset.jump (-15)).pc + 15 ≤ 0 := by decide
theorem witness_EveryStepKeepsInvariant :
    setState.Inv ∧ (∃ t, step setState = .next t) ∧
      ({ setState with schedule := [.bridge (.mouseX H)] } : State).Inv ∧
      ∃ t, step { setState with schedule := [.bridge (.mouseX H)] } = .next t :=
  ⟨by decide, ⟨_, rfl⟩, by decide, ⟨_, rfl⟩⟩
theorem witness_OnlyHaltAndLaunchChangeHalted :
    (∃ t, step State.reset = .next t ∧ State.reset.halted = false ∧ t.halted = true) ∧
      ∃ t, step { State.reset.setHalted true with schedule := [.launch (some [])] } = .next t ∧
        (State.reset.setHalted true).halted = true ∧ t.halted = false :=
  ⟨⟨_, rfl, rfl, rfl⟩, ⟨_, rfl, rfl, rfl⟩⟩
theorem witness_OnlyCallAndRectWriteMemory :
    writesMemory (.add 0 1) = false ∧ ∃ t, exec (.add 0 1) (regs [(0, 5), (1, 3)]) = .next t := ⟨rfl, _, rfl⟩
theorem witness_OnlyTheDestinationChanges :
    destination State.reset.build (.add 0 1) ≠ some 1 ∧ destination State.reset.build (.call 0 60) ≠ some 0 ∧
      (∃ t, exec (.add 0 1) State.reset = .next t) ∧ ∃ t, exec (.call 0 60) State.reset = .next t :=
  ⟨by decide, by decide, ⟨_, rfl⟩, ⟨_, rfl⟩⟩
theorem witness_NoInstructionWritesAPort : ∃ t, exec (.pollKey 3 65) State.reset = .next t := ⟨_, rfl⟩
theorem witness_PortsAreUnseenWithoutPolls :
    readsPort (.call 0 60) = false ∧ ∃ t, exec (.call 0 60) State.reset = .next t := ⟨rfl, _, rfl⟩
theorem witness_AlignedPcStaysAligned :
    (placed 30 "-+-+ 00000 0-+-+0" State.reset).build.bootAddr % 15 = 0 ∧
      (placed 30 "-+-+ 00000 0-+-+0" State.reset).pc % 15 = 0 ∧
      transferTarget (placed 30 "-+-+ 00000 0-+-+0" State.reset).fetch = some 60 ∧
      ∃ t, step (placed 30 "-+-+ 00000 0-+-+0" State.reset) = .next t :=
  ⟨by decide, by decide, by decide, ⟨_, rfl⟩⟩
theorem witness_TransfersReachSixTrits :
    setState.schedule = [] ∧ setState.halted = false ∧ ∃ t, step setState = .next t := ⟨rfl, rfl, _, rfl⟩
/-- A CALL whose pushed fifteen trits land exactly on its target, at both ends of memory. -/
theorem witness_PushIsSeenByTheNextFetch :
    (regs [(26, 15)]).mem.wf ∧ (regs [(26, 15)]).build.callPushLen = 15 ∧
      clamp ((regs [(26, 15)]).readReg (regs [(26, 15)]).build.spIndex - 15) = 0 ∧ (0 : Int) ≤ 0 ∧
      (0 : Int) + 15 ≤ ((regs [(26, 15)]).build.memSize : Int) ∧
      clamp ((regs [(26, 59049)]).readReg (regs [(26, 59049)]).build.spIndex - 15) = 59034 ∧
      (59034 : Int) + 15 ≤ ((regs [(26, 59049)]).build.memSize : Int) := by decide
theorem witness_NoStepChangesTheBuild : ∃ t, step setState = .next t := ⟨_, rfl⟩
theorem witness_LaunchResetsTheMachine :
    ({ State.reset with schedule := [.launch (some [⟨11, 0, 5⟩])] } : State).schedule =
        .launch (some [⟨11, 0, 5⟩]) :: [] ∧
      ¬((State.reset.build.bootAddr : Int) ≤ 15 ∧ (15 : Int) < (State.reset.build.bootAddr : Int) + 15 * ((1 : Nat) : Int)) ∧
      ((State.reset.build.clearLo : Int) ≤ 13121 ∧ (13121 : Int) < (State.reset.build.clearHi : Int)) ∧
      ¬((State.reset.build.clearLo : Int) ≤ 13122 ∧ (13122 : Int) < (State.reset.build.clearHi : Int)) := by decide
/-- In a memory of 20 cells the second record of an image does not fit: its first five cells are in memory. -/
theorem witness_LaunchedRecordsAreFetched :
    State.reset.mem.wf ∧ ([⟨11, 0, 5⟩, ⟨0, 0, 0⟩] : List ImageRecord)[1]? = some ⟨0, 0, 0⟩ ∧
      State.reset.build.bootAddr + 15 * (1 + 1) ≤ State.reset.build.memSize ∧
      (State.powerOn { refBuild with memSize := 20 }).mem.wf ∧
      (State.powerOn { refBuild with memSize := 20 }).inMemory (0 + 15 * ((1 : Nat) : Int) + ((4 : Nat) : Int)) = true ∧
      (State.powerOn { refBuild with memSize := 20 }).inMemory (0 + 15 * ((1 : Nat) : Int) + ((5 : Nat) : Int)) = false := by
  decide
theorem witness_MissingImageChangesNothing :
    ({ State.reset with schedule := [.launch none] } : State).schedule = .launch none :: [] := by decide
theorem witness_BridgeWritesOnePort :
    ({ State.reset with schedule := [.bridge (.mouseX 17)] } : State).schedule = .bridge (.mouseX 17) :: [] ∧
      ({ State.reset with schedule := [.bridge (.mouseY (-H))] } : State).schedule = .bridge (.mouseY (-H)) :: [] ∧
      ({ State.reset with schedule := [.bridge (.click 1)] } : State).schedule = .bridge (.click 1) :: [] ∧
      ({ State.reset with schedule := [.bridge (.key 65 true)] } : State).schedule = .bridge (.key 65 true) :: [] ∧
      (66 : Int) ≠ 65 := by decide
theorem witness_RendererChangesNothing :
    ({ State.reset with schedule := [.render] } : State).schedule = .render :: [] := by decide
theorem witness_AssemblerEmitsInstructions :
    tokensFrom [] (stripComment refBuild.commentMarker "poll_Mouse 3 1 x ; y".toList) =
        ["poll_Mouse".toList, "3".toList, "1".toList, "x".toList] ∧
      "poll_Mouse".toList.map Char.toUpper = "POLL_MOUSE".toList ∧
      (tokensFrom [] (stripComment refBuild.commentMarker "start: SET".toList) = ["start:".toList, "SET".toList] ∧
        ∀ m ∈ (["HALT", "ADD", "SUB", "MUL", "DIV", "NEG", "SET", "CPY", "JMP", "BRN", "BRP", "TRI", "CALL", "RECT",
          "POLL_MOUSE", "POLL_KEY"] : List String), "start:".toList.map Char.toUpper ≠ m.toList) ∧
      tokensFrom [] (stripComment refBuild.commentMarker "  ; SET 0 5".toList) = [] := by decide +kernel
theorem witness_PlacedWordRunsNext :
    State.reset.mem.wf ∧ 15 ≤ State.reset.build.memSize ∧ decodeTableWord 32 0x680016 = some (.set 0 5) := by decide
theorem witness_OpcodeMapDecodes :
    (cells "+++++").length = 5 ∧ (cells "------").length = 6 ∧ (cells "00--").length = 4 ∧
      cells "00--" ∉ ["0000", "+000", "-+00", "0+00", "++00", "0-+0", "-++0", "0++0", "-+-+", "0+-+", "++-+", "--0+",
        "0-0+", "0+0+", "++0+", "--++"].map cells ∧
      decode (cells "00--" ++ cells "+++++" ++ cells "------") = .ok (.unknownOpcode (-36) 121 (-364)) := by decide +kernel
/-- A comment at the end of a text and one that is the whole of it, a text without the marker, two tokens with and without
whitespace around them, and each kind of argument. -/
theorem witness_AssemblerReadsTokens :
    ([';'] : List Char) ≠ [] ∧
      (∀ k : Nat, k < ['A'].length → ¬[';'] <+: (['A'] ++ [';'] ++ [';']).drop k) ∧
      (∀ k : Nat, k < ['A', ' '].length → ¬[';'] <+: ['A', ' '].drop k) ∧
      (∀ c ∈ [' ', '\t'], c.isWhitespace = true) ∧
      (∀ w ∈ [(['A'], [' ']), (['B'], [])],
        w.1 ≠ [] ∧ (∀ c ∈ w.1, c.isWhitespace = false) ∧ ∀ c ∈ w.2, c.isWhitespace = true) ∧
      (∀ w ∈ ([(['A'], [' ']), (['B'], [])] : List (List Char × List Char)).dropLast, w.2 ≠ []) ∧
      (["13".toList] : List (List Char))[1]? = none ∧
      ((∀ d ∈ [1, 3], d < 10) ∧ ["13".toList][0]? = some ([1, 3].map Nat.digitChar) ∧
        ["-13".toList][0]? = some ('-' :: [1, 3].map Nat.digitChar)) ∧
      ('x'.isDigit = false ∧ ["1x3".toList][0]? = some (['1'] ++ 'x' :: ['3']) ∧
        ["x3".toList][0]? = some ('x' :: ['3'])) ∧
      ["-".toList][0]? = some ['-'] :=
  ⟨by decide, by decide, by decide, by simp, by simp, by decide, rfl,
    ⟨by decide, rfl, rfl⟩, ⟨rfl, rfl, rfl⟩, rfl⟩
/-- The longest image that REF holds has 437 records; one of 438 would meet the framebuffer. -/
theorem witness_LaunchClearsTheFramebuffer :
    State.reset.build.Valid ∧ State.reset.build.HoldsImage ([⟨11, 0, 5⟩] : List ImageRecord).length ∧
      State.reset.build.HoldsImage 437 ∧ ¬State.reset.build.HoldsImage 438 ∧
      ((State.reset.build.fbBase : Int) ≤ 6561 ∧ (13121 : Int) < (State.reset.build.fbEnd : Int)) ∧
      (26 : Int) < (State.reset.build.fbWidth : Int) ∧ (26 : Int) < (State.reset.build.fbHeight : Int) := by decide
/-- Builds that the constraints refuse: the framebuffer on the program, a window that misses the program, a window that is
the whole of memory, no comment marker. -/
theorem test_builds_that_are_not_valid :
    ∀ b ∈ [{ refBuild with fbBase := 0 }, { refBuild with bootAddr := 13125 }, { refBuild with clearHi := 59049 },
      { refBuild with commentMarker := [] }], ¬Build.Valid b := by decide

end Sys2Proof.Tests
end

section
/-! PROOFS. `clamp` as the balanced residue (40_codec.md R92): `bal n v` is congruent to v modulo 3^n and is the only such
integer of -H(n)..H(n), for every n; at n = 50 this is the rule's own text. -/

namespace Sys2Proof.Machine

theorem pow_three_fifty : ((3 ^ 50 : Nat) : Int) = 717897987691852588770249 := by decide

/-- `bal n v` and v have the same residue modulo 3^n. -/
theorem bal_sub_emod (n : Nat) (v : Int) : (bal n v - v) % ((3 ^ n : Nat) : Int) = 0 := by
  obtain ⟨k, hk⟩ := bal_eq_add n v
  rw [hk, add_sub_cancel_left, Int.mul_emod_right]

/-- No other integer of -H(n)..H(n) has that residue. -/
theorem eq_bal_of_sub_emod {n : Nat} {v r : Int} (hr : -maxValue n ≤ r ∧ r ≤ maxValue n)
    (h : (r - v) % ((3 ^ n : Nat) : Int) = 0) : r = bal n v := by
  obtain ⟨k, hk⟩ := Int.dvd_of_emod_eq_zero h
  exact (bal_eq_of_congr hr (eq_add_of_sub_eq' hk)).symm

/-- The pseudocode of 40_codec.md R92 with its two constants written out. -/
theorem clamp_eq_ite (v : Int) :
    clamp v = if v % 717897987691852588770249 > 358948993845926294385124
      then v % 717897987691852588770249 - 717897987691852588770249 else v % 717897987691852588770249 := by
  rw [clamp, bal, pow_three_fifty, maxValue_fifty]

/-- Settles O6: the definition's constants are R92's, `bal` keeps its range and its residue, and the residue system is
complete, so nothing else in the range is congruent to v. -/
theorem clampIsBalancedResidue : Obligations.ClampIsBalancedResidue := by
  refine ⟨maxValue_fifty, pow_three_fifty, fun v => ?_⟩
  obtain ⟨hlo, hhi⟩ := clamp_range v
  have hcongr : (clamp v - v) % ((3 ^ 50 : Nat) : Int) = 0 := bal_sub_emod 50 v
  have hunique (r : Int) (hr : -maxValue 50 ≤ r ∧ r ≤ maxValue 50)
      (h : (r - v) % ((3 ^ 50 : Nat) : Int) = 0) : r = clamp v := eq_bal_of_sub_emod hr h
  rw [maxValue_fifty] at hlo hhi hunique
  rw [pow_three_fifty] at hcongr hunique
  exact ⟨clamp_eq_ite v, hlo, hhi, hcongr, fun r hrlo hrhi => hunique r ⟨hrlo, hrhi⟩⟩

end Sys2Proof.Machine
end

section
/-! PROOFS. The step cycle (41_step_cycle.md): what `step()` runs when the CPU moves, the opcode values that select no
instruction (R105), and the halted machine (R101). -/

namespace Sys2Proof

/-- An opcode value outside R66's table dispatches to the no-op (30_encoding.md R68). -/
theorem decodeFields_of_notMem_assignedOpcodes {o : Int} (ho : o ∉ assignedOpcodes) (a b : Int) :
    decodeFields o a b = .unknownOpcode o a b := by
  simp only [assignedOpcodes, List.mem_cons, List.not_mem_nil, or_false, not_or] at ho
  simp [decodeFields, ho]

namespace Machine

/-- With no agent's move before it, the transition is the CPU's. -/
theorem step_of_schedule_nil {s : State} (hs : s.schedule = []) : step s = cpuStep s := by
  unfold step; rw [hs]

/-- A `step()` that the schedule holds leaves the schedule, and then the CPU moves (log entry 7). -/
theorem step_of_schedule_cpuStep {s : State} {ms : List HostMove} (hs : s.schedule = .cpuStep :: ms) :
    step s = cpuStep { s with schedule := ms } := by
  unfold step; rw [hs]

/-- The CPU of a halted machine makes no fetch (41_step_cycle.md R101). -/
theorem cpuStep_of_halted {s : State} (hh : s.halted = true) : cpuStep s = .next s := by
  unfold cpuStep; rw [if_pos hh]

/-- The meaning of the no-op, whatever its fields hold (41_step_cycle.md R105). -/
theorem exec_unknownOpcode (c op1 op2 : Int) (s : State) : exec (.unknownOpcode c op1 op2) s = .next s.advance := rfl

/-- The fetch at an unassigned opcode value finds the no-op, whatever the operand fields hold. -/
theorem State.fetch_of_unassigned {s : State} (ho : s.memRead s.pc 4 ∉ assignedOpcodes) :
    s.fetch = .unknownOpcode (s.memRead s.pc 4) (s.memRead (s.pc + 4) 5) (s.memRead (s.pc + 9) 6) :=
  decodeFields_of_notMem_assignedOpcodes ho _ _

/-- A transition that gives back its own state does so for a run of any length. -/
theorem run_of_step_self {s : State} (h : step s = .next s) (k : Nat) : Host.Core.run Sys2Proof.core k s = .next s := by
  induction k with
  | zero => rfl
  | succ k ih => rw [run_succ_of_next h, ih]

/-- Settles O25: the no-op only advances, and at an unassigned opcode value the no-op is what the fetch finds. -/
theorem unknownOpcodeOnlyAdvances : Obligations.UnknownOpcodeOnlyAdvances := by
  refine ⟨fun c op1 op2 s => exec_unknownOpcode c op1 op2 s, fun s hs hh ho => ?_⟩
  calc step s = exec s.fetch s := step_of_running hs hh
    _ = .next s.advance := by rw [State.fetch_of_unassigned ho, exec_unknownOpcode]

/-- Settles O31: the halted state is its own successor, so every run from it stays there; a scheduled `step()` is the
same transition once its move has left the schedule. -/
theorem haltedMachineIsFrozen : Obligations.HaltedMachineIsFrozen := by
  intro s hh
  constructor
  · intro hs
    exact run_of_step_self ((step_of_schedule_nil hs).trans (cpuStep_of_halted hh))
  · intro ms hs
    rw [step_of_schedule_cpuStep hs]
    exact cpuStep_of_halted hh

end Machine
end Sys2Proof
end

section
/-! PROOFS. ADD, SUB, MUL and NEG (42_arithmetic.md R111, R112, R113, R115): the trits of the encoding, the arm of `exec`
as one of the model's two register-writing shapes, and the frame of that shape. -/

namespace Sys2Proof

/-- The layout of an encoding (30_encoding.md R61): the four trits of the opcode number, then the two operand fields. -/
theorem encode_of_opcodeNumber {i : Instr} {c : Int} {ts : List Trit} (hc : i.opcodeNumber = c)
    (hts : Machine.balancedTrits 4 c = ts) :
    encode i = ts ++ Machine.balancedTrits 5 i.op1Field ++ Machine.balancedTrits 6 i.op2Field := by
  rw [encode, encodeFields, hc, hts]

namespace Machine
variable (op1 op2 : Int) (s : State)

theorem exec_add : exec (.add op1 op2) s = .next (binaryOp (fun a b => clamp (a + b)) op1 op2 s) := rfl
theorem exec_sub : exec (.sub op1 op2) s = .next (binaryOp (fun a b => clamp (a - b)) op1 op2 s) := rfl
theorem exec_mul : exec (.mul op1 op2) s = .next (binaryOp (fun a b => clamp (a * b)) op1 op2 s) := rfl
/-- NEG loads the negation as it is: operand-2 does not count, and no `clamp` is applied (42_arithmetic.md R115). -/
theorem exec_neg : exec (.neg op1 op2) s = .next (loadReg op1 (-(s.readReg (ri op1))) s) := rfl

end Machine

open Machine

/-- The range of a register is symmetric about 0, so R115 needs no `clamp`. -/
theorem inWordRange_neg {v : Int} (h : inWordRange v) : inWordRange (-v) :=
  ⟨neg_le_neg h.2, neg_le.mp h.1⟩

/-- Settles O12: ADD is the arithmetic shape with the clamped sum. -/
theorem addWritesClampedSum : Obligations.AddWritesClampedSum := fun op1 op2 s =>
  ⟨encode_of_opcodeNumber (c := 1) rfl (by decide), _, exec_add op1 op2 s, binaryOp_writes _ op1 op2 s⟩

/-- Settles O13: SUB is the arithmetic shape with the clamped difference. -/
theorem subWritesClampedDifference : Obligations.SubWritesClampedDifference := fun op1 op2 s =>
  ⟨encode_of_opcodeNumber (c := 2) rfl (by decide), _, exec_sub op1 op2 s, binaryOp_writes _ op1 op2 s⟩

/-- Settles O14: MUL is the arithmetic shape with the exact product under one `clamp`. -/
theorem mulWritesClampedProduct : Obligations.MulWritesClampedProduct := fun op1 op2 s =>
  ⟨encode_of_opcodeNumber (c := 3) rfl (by decide), _, exec_mul op1 op2 s, binaryOp_writes _ op1 op2 s⟩

/-- Settles O16: NEG is the load shape with the negation, and the symmetric range keeps it a register's value. -/
theorem negWritesNegation : Obligations.NegWritesNegation := fun op1 op2 s =>
  ⟨encode_of_opcodeNumber (c := 6) rfl (by decide), ⟨_, exec_neg op1 op2 s, loadReg_writes op1 s _⟩, inWordRange_neg⟩

end Sys2Proof
end

section
/-! PROOFS. SET and CPY (43_data_movement.md R120, R121): both are the model's load shape, with the clamped immediate and
with the source register's value. -/

namespace Sys2Proof

namespace Machine
variable (op1 op2 : Int) (s : State)

theorem exec_set : exec (.set op1 op2) s = .next (loadReg op1 (clamp op2) s) := rfl
/-- CPY loads what the source register holds as it is: R121 applies no `clamp`. -/
theorem exec_cpy : exec (.cpy op1 op2) s = .next (loadReg op1 (s.readReg (ri op2)) s) := rfl

end Machine

open Machine

/-- A six-trit immediate fits in a register (43_data_movement.md R120: 364 < H(50)). -/
theorem inWordRange_of_immediate {v : Int} (hlo : -364 ≤ v) (hhi : v ≤ 364) : inWordRange v := by
  rw [inWordRange, maxValue_fifty]
  omega

/-- Settles O18: SET is the load shape with the clamped immediate, and an immediate is in the range that `clamp` keeps. -/
theorem setLoadsImmediate : Obligations.SetLoadsImmediate := fun op1 op2 s =>
  ⟨encode_of_opcodeNumber (c := 11) rfl (by decide), ⟨_, exec_set op1 op2 s, loadReg_writes op1 s _⟩,
    fun hlo hhi => clamp_eq_self (inWordRange_of_immediate hlo hhi)⟩

/-- Settles O19: CPY is the load shape with the source register's value. -/
theorem cpyCopiesRegister : Obligations.CpyCopiesRegister := fun op1 op2 s =>
  ⟨encode_of_opcodeNumber (c := 12) rfl (by decide), _, exec_cpy op1 op2 s, loadReg_writes op1 s _⟩

end Sys2Proof
end

section
/-! PROOFS. JMP, BRN and BRP (44_control_transfer.md R127, R128, R129): JMP is the model's jump, BRN and BRP its branch
shape under a condition on the operand-1 register; neither shape changes anything but `pc`. -/

namespace Sys2Proof

namespace Machine

/-- BRN's condition as a proposition. -/
theorem isNegative_iff {v : Int} : isNegative v = true ↔ v < 0 := decide_eq_true_iff
/-- BRP's condition as a proposition. -/
theorem isPositive_iff {v : Int} : isPositive v = true ↔ v > 0 := decide_eq_true_iff

variable (op1 op2 : Int) (s : State)

/-- The target is operand-2 as it stands: R127 adds no 15 and applies no `clamp`. -/
theorem exec_jmp : exec (.jmp op1 op2) s = .next (s.jump op2) := rfl
theorem exec_brn : exec (.brn op1 op2) s = .next (branchIf (isNegative (s.readReg (ri op1))) op2 s) := rfl
theorem exec_brp : exec (.brp op1 op2) s = .next (branchIf (isPositive (s.readReg (ri op1))) op2 s) := rfl

/-- The two arms of the branch shape, for a condition that decides `P`. -/
theorem branchIf_movesPc_of_iff {c : Bool} {P : Prop} (hc : c = true ↔ P) :
    (P → MovesPc op2 s (branchIf c op2 s)) ∧ (¬P → MovesPc (s.pc + 15) s (branchIf c op2 s)) := by
  have hmoves : MovesPc (if c then op2 else s.pc + 15) s (branchIf c op2 s) := branchIf_movesPc op2 s c
  constructor
  · intro taken
    rwa [if_pos (hc.mpr taken)] at hmoves
  · intro notTaken
    rwa [if_neg (mt hc.mp notTaken)] at hmoves

end Machine

open Machine

/-- Settles O21: JMP is the jump to operand-2. -/
theorem jmpAssignsPc : Obligations.JmpAssignsPc := fun op1 op2 s =>
  ⟨encode_of_opcodeNumber (c := 20) rfl (by decide), _, exec_jmp op1 op2 s, jump_movesPc s op2⟩

/-- Settles O22: BRN is the branch shape, taken where the operand-1 register is negative. -/
theorem brnBranchesOnNegative : Obligations.BrnBranchesOnNegative := fun op1 op2 s =>
  ⟨encode_of_opcodeNumber (c := 21) rfl (by decide), _, exec_brn op1 op2 s,
    branchIf_movesPc_of_iff op2 s isNegative_iff⟩

/-- Settles O23: BRP is the branch shape, taken where the operand-1 register is positive. -/
theorem brpBranchesOnPositive : Obligations.BrpBranchesOnPositive := fun op1 op2 s =>
  ⟨encode_of_opcodeNumber (c := 22) rfl (by decide), _, exec_brp op1 op2 s,
    branchIf_movesPc_of_iff op2 s isPositive_iff⟩

end Sys2Proof
end

section
/-! PROOFS. The loader's move in the step cycle (70_reset_and_hazards.md R165), and the launch of a missing image, whose
arm is the state as it was (R168). -/

namespace Sys2Proof.Machine

/-- A launch that the schedule holds leaves the schedule, and then the loader moves (log entry 7). -/
theorem step_of_schedule_launch {s : State} {im : Option (List ImageRecord)} {ms : List HostMove}
    (hs : s.schedule = .launch im :: ms) : step s = .next (State.launch { s with schedule := ms } im) := by
  unfold step; rw [hs]

/-- A path that names no image resets nothing (70_reset_and_hazards.md R168). -/
@[simp] theorem State.launch_none (s : State) : s.launch none = s := rfl

/-- Settles O50: the missing image's arm is the state itself, so of its transition only the move's departure from the
schedule remains. -/
theorem missingImageChangesNothing : Obligations.MissingImageChangesNothing := by
  intro s
  refine ⟨s.launch_none, fun ms hs => ?_⟩
  rw [step_of_schedule_launch hs, State.launch_none]

end Sys2Proof.Machine
end

section
/-! PROOFS. The decoder and the encoder (30_encoding.md): each is the other's inverse, the opcode map row by row, and the
register that a field names. -/

namespace Sys2Proof

open Machine

/-- Every instruction is found again from its three fields (30_encoding.md R66). -/
theorem fieldsRoundTrip : ∀ i : Instr, Laws.FieldsRoundTrip.Statement i
  | .halt a b => Laws.FieldsRoundTrip.halt a b
  | .add a b => Laws.FieldsRoundTrip.add a b
  | .sub a b => Laws.FieldsRoundTrip.sub a b
  | .mul a b => Laws.FieldsRoundTrip.mul a b
  | .div a b => Laws.FieldsRoundTrip.div a b
  | .neg a b => Laws.FieldsRoundTrip.neg a b
  | .set a b => Laws.FieldsRoundTrip.set a b
  | .cpy a b => Laws.FieldsRoundTrip.cpy a b
  | .jmp a b => Laws.FieldsRoundTrip.jmp a b
  | .brn a b => Laws.FieldsRoundTrip.brn a b
  | .brp a b => Laws.FieldsRoundTrip.brp a b
  | .tri a b => Laws.FieldsRoundTrip.tri a b
  | .call a b => Laws.FieldsRoundTrip.call a b
  | .rect a b => Laws.FieldsRoundTrip.rect a b
  | .pollMouse a b => Laws.FieldsRoundTrip.pollMouse a b
  | .pollKey a b => Laws.FieldsRoundTrip.pollKey a b
  | .unknownOpcode c a b => Laws.FieldsRoundTrip.unknownOpcode c a b

/-- The fields of every well-formed instruction fit their trits (30_encoding.md R61). -/
theorem fieldsFit : ∀ i : Instr, Laws.FieldsFit.Statement i
  | .halt a b => Laws.FieldsFit.halt a b
  | .add a b => Laws.FieldsFit.add a b
  | .sub a b => Laws.FieldsFit.sub a b
  | .mul a b => Laws.FieldsFit.mul a b
  | .div a b => Laws.FieldsFit.div a b
  | .neg a b => Laws.FieldsFit.neg a b
  | .set a b => Laws.FieldsFit.set a b
  | .cpy a b => Laws.FieldsFit.cpy a b
  | .jmp a b => Laws.FieldsFit.jmp a b
  | .brn a b => Laws.FieldsFit.brn a b
  | .brp a b => Laws.FieldsFit.brp a b
  | .tri a b => Laws.FieldsFit.tri a b
  | .call a b => Laws.FieldsFit.call a b
  | .rect a b => Laws.FieldsFit.rect a b
  | .pollMouse a b => Laws.FieldsFit.pollMouse a b
  | .pollKey a b => Laws.FieldsFit.pollKey a b
  | .unknownOpcode c a b => Laws.FieldsFit.unknownOpcode c a b

/-- Settles O1: each field of a well-formed instruction is its own balanced residue, and the dispatch on the three fields
gives the instruction back. -/
theorem encodeThenDecodeGivesInstruction : Obligations.EncodeThenDecodeGivesInstruction := by
  intro i hwf
  obtain ⟨hopcode, hop1, hop2⟩ := fieldsFit i hwf
  rw [encode, decode_encodeFields, bal_eq_self hopcode, bal_eq_self hop1, bal_eq_self hop2, fieldsRoundTrip i hwf]

/-- What the dispatch answers is well formed where the three values fit their fields: an assigned opcode leaves only the
operands to check, and the no-op is answered for no assigned opcode. -/
theorem decodeFields_wf {o a b : Int} (ho : fitsOpcode o = true) (ha : fitsOp1 a = true) (hb : fitsOp2 b = true) :
    (decodeFields o a b).wf = true := by
  have operands : (fitsOp1 a && fitsOp2 b) = true := Bool.and_eq_true_iff.2 ⟨ha, hb⟩
  by_cases hassigned : o ∈ assignedOpcodes
  · simp only [assignedOpcodes, List.mem_cons, List.not_mem_nil, or_false] at hassigned
    rcases hassigned with rfl | rfl | rfl | rfl | rfl | rfl | rfl | rfl | rfl | rfl | rfl | rfl | rfl | rfl | rfl | rfl <;>
      exact operands
  · rw [decodeFields_of_notMem_assignedOpcodes hassigned, Instr.wf, ho, ha, hb]
    simpa using hassigned

/-- A string of n trits is what encode emits for its value (40_codec.md R91). -/
theorem balancedTrits_tritsValue_of_length {ts : List Trit} {n : Nat} (h : ts.length = n) :
    balancedTrits n (tritsValue ts) = ts := by
  rw [← h, balancedTrits_tritsValue]

/-- The value of n trits is within H(n), with the bound written out by the caller. -/
theorem tritsValue_bounds {ts : List Trit} {n : Nat} {m : Int} (hlen : ts.length = n) (hm : maxValue n = m) :
    -m ≤ tritsValue ts ∧ tritsValue ts ≤ m := by
  rw [← hm, ← hlen]; exact tritsValue_range ts

/-- The decoder on four, five and six trits set side by side (30_encoding.md R61). -/
theorem decode_append {o a b : List Trit} (ho : o.length = 4) (ha : a.length = 5) (hb : b.length = 6) :
    decode (o ++ a ++ b) = .ok (decodeFields (tritsValue o) (tritsValue a) (tritsValue b)) := by
  have h := decode_encodeFields (tritsValue o) (tritsValue a) (tritsValue b)
  rwa [encodeFields, balancedTrits_tritsValue_of_length ho, balancedTrits_tritsValue_of_length ha,
    balancedTrits_tritsValue_of_length hb, bal_eq_self (tritsValue_bounds ho rfl),
    bal_eq_self (tritsValue_bounds ha rfl), bal_eq_self (tritsValue_bounds hb rfl)] at h

/-- The instruction of three fields side by side is well formed, and its encoding is those fifteen trits. -/
theorem decodeFields_tritsValue_spec {o a b : List Trit} (ho : o.length = 4) (ha : a.length = 5) (hb : b.length = 6) :
    (decodeFields (tritsValue o) (tritsValue a) (tritsValue b)).wf = true ∧
      encode (decodeFields (tritsValue o) (tritsValue a) (tritsValue b)) = o ++ a ++ b := by
  constructor
  · exact decodeFields_wf (decide_eq_true (tritsValue_bounds ho rfl)) (decide_eq_true (tritsValue_bounds ha rfl))
      (decide_eq_true (tritsValue_bounds hb rfl))
  · obtain ⟨hopcode, hop1, hop2⟩ := decodeFields_fields (tritsValue o) (tritsValue a) (tritsValue b)
    rw [encode, hopcode, hop1, hop2, encodeFields, balancedTrits_tritsValue_of_length ho,
      balancedTrits_tritsValue_of_length ha, balancedTrits_tritsValue_of_length hb]

/-- Fifteen trits are their three fields side by side. -/
theorem exists_fields_of_length {ts : List Trit} (h : ts.length = 15) :
    ∃ o a b : List Trit, o.length = 4 ∧ a.length = 5 ∧ b.length = 6 ∧ ts = o ++ a ++ b :=
  ⟨ts.take 4, (ts.drop 4).take 5, (ts.drop 4).drop 5, by simp [h], by simp [h], by simp [h], by
    rw [List.append_assoc, List.take_append_drop, List.take_append_drop]⟩

/-- The decoder drops no trit: what it reads from fifteen trits encodes to them. -/
theorem decode_of_length {ts : List Trit} (h : ts.length = 15) :
    ∃ i, decode ts = .ok i ∧ i.wf = true ∧ encode i = ts := by
  obtain ⟨o, a, b, ho, ha, hb, rfl⟩ := exists_fields_of_length h
  exact ⟨_, decode_append ho ha hb, decodeFields_tritsValue_spec ho ha hb⟩

/-- Settles O2: fifteen trits split into three fields, each of which is the encoding of its value; any other length is
refused at once. -/
theorem decodeThenEncodeGivesTrits : Obligations.DecodeThenEncodeGivesTrits :=
  fun _ => ⟨decode_of_length, fun h => if_neg h⟩

/-- Settles O56: the dispatch is on the value of the four opcode trits, and four trits that are no row's have no row's
value, since they are the encoding of their value. -/
theorem opcodeMapDecodes : Obligations.OpcodeMapDecodes := by
  intro a b ha hb
  have row {o : List Trit} (ho : o.length = 4) := decode_append ho ha hb
  refine ⟨row rfl, row rfl, row rfl, row rfl, row rfl, row rfl, row rfl, row rfl, row rfl, row rfl, row rfl, row rfl,
    row rfl, row rfl, row rfl, row rfl, fun o ho hrows => ?_⟩
  have hunassigned : tritsValue o ∉ assignedOpcodes := fun hmem =>
    hrows (balancedTrits_tritsValue_of_length ho ▸ List.mem_map_of_mem (f := balancedTrits 4) hmem)
  rw [row ho, decodeFields_of_notMem_assignedOpcodes hunassigned]

/-- Settles O3: six words written out. -/
theorem knownCellsDecode : Obligations.KnownCellsDecode := by
  unfold Obligations.KnownCellsDecode
  decide

/-- Settles O4: four trits hold the residue -36 of 45, which no row of the map has. -/
theorem fortyFiveIsNotHalt : Obligations.FortyFiveIsNotHalt := by
  refine ⟨by decide, fun op1 op2 => ?_⟩
  have hresidue : bal 4 45 = -36 := by decide
  have hunassigned : (-36 : Int) ∉ assignedOpcodes := by decide
  rw [decode_encodeFields, hresidue, decodeFields_of_notMem_assignedOpcodes hunassigned]

/-- Of a field only the three low trits name the register: the others weigh multiples of 27 (30_encoding.md R63). -/
theorem ri_tritsValue_take (ts : List Trit) : ri (tritsValue ts) = ri (tritsValue (ts.take 3)) := by
  rcases Nat.lt_or_ge ts.length 3 with hshort | hlong
  · rw [List.take_of_length_le hshort.le]
  · have hsplit := tritsValue_append (ts.take 3) (ts.drop 3)
    rw [List.take_append_drop, List.length_take_of_le hlong] at hsplit
    rw [hsplit]
    exact ri_add_mul _ _

/-- Settles O5: the index is the floored residue modulo 27, which trits from the fourth on do not change. -/
theorem registerIndexWraps : Obligations.RegisterIndexWraps := by
  refine ⟨fun v => ?_, ri_tritsValue_take, by decide, by decide, by decide, by decide⟩
  rw [ri_val]
  omega

end Sys2Proof
end

section
/-! PROOFS. The codec (40_codec.md): `bal` as arithmetic modulo 3^n, decode as a bijection, and what a codec write leaves
in the cells. -/

namespace Sys2Proof.Machine

/-- `bal n v` is congruent to v modulo 3^n (00_scope.md R10). -/
theorem bal_modEq (n : Nat) (v : Int) : bal n v ≡ v [ZMOD ((3 ^ n : Nat) : Int)] :=
  (Int.modEq_iff_add_fac.2 (bal_eq_add n v)).symm

/-- `bal` depends on the residue only. -/
theorem bal_eq_bal_of_modEq {n : Nat} {v w : Int} (h : v ≡ w [ZMOD ((3 ^ n : Nat) : Int)]) : bal n v = bal n w := by
  obtain ⟨k, rfl⟩ := Int.modEq_iff_add_fac.1 h
  exact (bal_add_mul n v k).symm

/-- The range is symmetric, so the residue of -v is the negated one. -/
theorem bal_neg (n : Nat) (v : Int) : bal n (-v) = -bal n v := by
  obtain ⟨hlo, hhi⟩ := bal_range n v
  calc bal n (-v) = bal n (-bal n v) := (bal_eq_bal_of_modEq (bal_modEq n v).neg).symm
    _ = -bal n v := bal_eq_self ⟨neg_le_neg hhi, neg_le.mp hlo⟩

/-- Past the top of the range the residues go on from its bottom: the wrap does not saturate (40_codec.md R93). -/
theorem bal_maxValue_add {n : Nat} {k : Int} (hlo : 1 ≤ k) (hhi : k ≤ ((3 ^ n : Nat) : Int)) :
    bal n (maxValue n + k) = -maxValue n + k - 1 := by
  have hpow := pow_eq_two_maxValue n
  exact bal_eq_of_congr (k := -1) ⟨by omega, by omega⟩ (by omega)

/-- Settles O7: `clamp` is `bal 50`, and each law is that of residues modulo 3^50. -/
theorem clampIsARingReduction : Obligations.ClampIsARingReduction :=
  ⟨bal_idem 50, fun _ => bal_eq_self, bal_neg 50,
    fun v w => (bal_eq_bal_of_modEq ((bal_modEq 50 v).add (bal_modEq 50 w))).symm,
    fun v w => (bal_eq_bal_of_modEq ((bal_modEq 50 v).sub (bal_modEq 50 w))).symm,
    fun v w => (bal_eq_bal_of_modEq ((bal_modEq 50 v).mul (bal_modEq 50 w))).symm,
    fun _ => bal_maxValue_add⟩

/-- Settles O10: a trit string is what encode emits for its value, and encode reaches every value of the range. -/
theorem decodeIsABijection : Obligations.DecodeIsABijection := by
  refine ⟨fun ts us hlen hval => ?_, tritsValue_range, fun n v hlo hhi => ?_, fun ts k => ?_⟩
  · rw [← balancedTrits_tritsValue ts, hval, hlen, balancedTrits_tritsValue]
  · exact ⟨balancedTrits n v, balancedTrits_length n v, (tritsValue_balancedTrits n v).trans (bal_eq_self ⟨hlo, hhi⟩)⟩
  · rw [tritsValue_append, tritsValue_replicate_zero, mul_zero, add_zero]

/-- A write of trits lands trit by trit in the cells that memory has. -/
theorem State.readCell_writeTrits_eq_getElem? {s : State} (hw : s.mem.wf) {a : Int} (ts : List Trit) {k : Nat}
    (hk : k < ts.length) (hin : s.inMemory (a + (k : Int)) = true) :
    some ((s.writeTrits a ts).readCell (a + (k : Int))) = ts[k]? := by
  rw [State.readCell_writeTrits_inside s hw ts hk hin, List.getElem?_eq_getElem hk]

/-- A codec write lands trit by trit in the cells that memory has (40_codec.md R88). -/
theorem State.readCell_memWrite_eq_getElem? {s : State} (hw : s.mem.wf) {a : Int} {n k : Nat} (v : Int) (hk : k < n)
    (hin : s.inMemory (a + (k : Int)) = true) :
    some ((s.memWrite a n v).readCell (a + (k : Int))) = (balancedTrits n v)[k]? :=
  State.readCell_writeTrits_eq_getElem? hw _ (by rwa [balancedTrits_length]) hin

/-- Writing trits where they already stand changes no cell. -/
theorem State.readCell_writeTrits_readTrits {s : State} (hw : s.mem.wf) {a : Int} {n : Nat}
    (hin : ∀ k : Nat, k < n → s.inMemory (a + (k : Int)) = true) (b : Int) :
    (s.writeTrits a (s.readTrits a n)).readCell b = s.readCell b := by
  by_cases hb : a ≤ b ∧ b < a + (n : Int)
  · obtain ⟨k, rfl⟩ := Int.le.dest hb.1
    have hk : k < n := by omega
    have hlen : k < (s.readTrits a n).length := by rwa [State.readTrits_length]
    rw [State.readCell_writeTrits_inside s hw _ hlen (hin k hk), State.readTrits_getElem]
  · exact State.readCell_writeTrits_outside s _ (by rwa [State.readTrits_length])

/-- Encoding the value that was decoded is storing the trits that were read. -/
theorem State.memWrite_memRead (s : State) (a : Int) (n : Nat) :
    s.memWrite a n (s.memRead a n) = s.writeTrits a (s.readTrits a n) := by
  rw [State.memWrite, State.memRead, balancedTrits_tritsValue_of_length (State.readTrits_length s a n)]

/-- Settles O8: what is read back is the residue, which a value of the range is itself; and writing a decoded value is
writing the trits that stand there. -/
theorem codecRoundTrips : Obligations.CodecRoundTrips := by
  intro s a n hw hin
  refine ⟨fun v hlo hhi => ?_, fun b => ?_⟩
  · rw [State.memRead_memWrite s hw a n v hin, bal_eq_self ⟨hlo, hhi⟩]
  · rw [State.memWrite_memRead, State.readCell_writeTrits_readTrits hw hin]

/-- Settles O9: what is read back is the residue, each trit lands in its cell, and the write's frame is the cells
a..a+n-1 of memory. -/
theorem encodeTruncatesAndStaysInPlace : Obligations.EncodeTruncatesAndStaysInPlace := by
  intro s a v n hw
  refine ⟨fun hin => ?_, fun k hk hin => State.readCell_memWrite_eq_getElem? hw v hk hin,
    fun b hb => State.readCell_memWrite_outside s v hb, fun b hb => State.readCell_outside _ ?_⟩
  · rw [State.memRead_memWrite s hw a n v hin, bal_sub_emod]
  · rwa [State.memWrite_build]

/-- Settles O11: decode splits after the fourth trit and after the ninth. -/
theorem slotReadAsOneNumber : Obligations.SlotReadAsOneNumber := by
  intro s a
  have hopcode := State.memRead_add s a 4 11
  have hoperands := State.memRead_add s (a + 4) 5 6
  have hnine : a + 4 + 5 = a + 9 := by ring
  norm_num [hnine] at hopcode hoperands
  rw [hopcode, hoperands]
  ring

end Sys2Proof.Machine
end

section
/-! PROOFS. What every instruction keeps: `exec` as one of six effects, said once, and the frames, the invariant and the
rules of the whole machine that follow from it. -/

namespace Sys2Proof.Machine

/-- The state after RECT's fill, its corner, size and colour read from registers 0 to 6 (45_io_instructions.md R136). -/
def State.painted (s : State) : State :=
  s.fillRect (s.readReg 0) (s.readReg 1) (s.readReg 2) (s.readReg 3) (s.readReg 4) (s.readReg 5) (s.readReg 6)

/-- What the transition of an instruction can be; `exec_effect` ties it to `exec`. A value loaded in a register is in the
registers' range where they all are. -/
inductive Effect (s : State) : Instr → State → Prop
  | halts (op1 op2 : Int) : Effect s (.halt op1 op2) (s.setHalted true).advance
  | idles (opcode op1 op2 : Int) : Effect s (.unknownOpcode opcode op1 op2) s.advance
  | loads {i : Instr} (op1 v : Int) (dest : destination s.build i = some (ri op1)) (keepsMem : writesMemory i = false)
      (range : (∀ r : Reg, inWordRange (s.readReg r)) → inWordRange v) : Effect s i (loadReg op1 v s)
  | transfers {i : Instr} (c : Bool) (op2 : Int) (target : transferTarget i = some op2)
      (keepsMem : writesMemory i = false) : Effect s i (branchIf c op2 s)
  | calls (op1 op2 : Int) : Effect s (.call op1 op2) ((s.push (s.pc + 15)).jump op2)
  | paints (op1 op2 : Int) : Effect s (.rect op1 op2) s.painted.advance

section arms
variable (op1 op2 : Int) (s : State)
theorem exec_halt : exec (.halt op1 op2) s = .next (s.setHalted true).advance := rfl
theorem exec_div :
    exec (.div op1 op2) s = .next (binaryOp (fun n d => clamp (quotient s.build.divRound n d)) op1 op2 s) := rfl
theorem exec_tri : exec (.tri op1 op2) s = .next (binaryOp (fun a b => sign (a - b)) op1 op2 s) := rfl
theorem exec_call : exec (.call op1 op2) s = .next ((s.push (s.pc + 15)).jump op2) := rfl
theorem exec_rect : exec (.rect op1 op2) s = .next s.painted.advance := rfl
theorem exec_pollMouse :
    exec (.pollMouse op1 op2) s = .next (loadReg op1 (mouseValue s (s.build.mouseSelect.lookup op2)) s) := rfl
theorem exec_pollKey : exec (.pollKey op1 op2) s = .next (loadReg op1 (keyValue s op2) s) := rfl
end arms

theorem inWordRange_sign (v : Int) : inWordRange (sign v) := by
  rcases sign_cases v with ⟨-, h⟩ | ⟨-, h⟩ | ⟨-, h⟩ <;> rw [h] <;> decide

theorem inWordRange_keyValue (s : State) (code : Int) : inWordRange (keyValue s code) := by
  rcases keyValue_cases s code with ⟨-, h⟩ | ⟨-, h⟩ <;> rw [h] <;> decide

/-- Every instruction goes on to a next state, by one of the six effects (41_step_cycle.md R106). -/
theorem exec_effect (i : Instr) (s : State) : ∃ t, exec i s = .next t ∧ Effect s i t := by
  cases i with
  | halt a b => exact ⟨_, exec_halt a b s, .halts a b⟩
  | add a b => exact ⟨_, exec_add a b s, .loads a _ rfl rfl fun _ => clamp_range _⟩
  | sub a b => exact ⟨_, exec_sub a b s, .loads a _ rfl rfl fun _ => clamp_range _⟩
  | mul a b => exact ⟨_, exec_mul a b s, .loads a _ rfl rfl fun _ => clamp_range _⟩
  | div a b => exact ⟨_, exec_div a b s, .loads a _ rfl rfl fun _ => clamp_range _⟩
  | neg a b => exact ⟨_, exec_neg a b s, .loads a _ rfl rfl fun h => inWordRange_neg (h _)⟩
  | set a b => exact ⟨_, exec_set a b s, .loads a _ rfl rfl fun _ => clamp_range _⟩
  | cpy a b => exact ⟨_, exec_cpy a b s, .loads a _ rfl rfl fun h => h _⟩
  | jmp a b => exact ⟨_, exec_jmp a b s, .transfers true b rfl rfl⟩
  | brn a b => exact ⟨_, exec_brn a b s, .transfers _ b rfl rfl⟩
  | brp a b => exact ⟨_, exec_brp a b s, .transfers _ b rfl rfl⟩
  | tri a b => exact ⟨_, exec_tri a b s, .loads a _ rfl rfl fun _ => inWordRange_sign _⟩
  | call a b => exact ⟨_, exec_call a b s, .calls a b⟩
  | rect a b => exact ⟨_, exec_rect a b s, .paints a b⟩
  | pollMouse a b => exact ⟨_, exec_pollMouse a b s, .loads a _ rfl rfl fun _ => mouseValue_range s _⟩
  | pollKey a b => exact ⟨_, exec_pollKey a b s, .loads a _ rfl rfl fun _ => inWordRange_keyValue s _⟩
  | unknownOpcode c a b => exact ⟨_, exec_unknownOpcode c a b s, .idles c a b⟩

theorem Effect.of_exec {i : Instr} {s t : State} (h : exec i s = .next t) : Effect s i t := by
  obtain ⟨u, hu, he⟩ := exec_effect i s
  obtain rfl : u = t := Host.Outcome.next.inj (hu.symm.trans h)
  exact he

section painted
variable (s : State)
@[simp] theorem State.painted_pc : s.painted.pc = s.pc := fillPixels_pc ..
@[simp] theorem State.painted_halted : s.painted.halted = s.halted := fillPixels_halted ..
@[simp] theorem State.painted_readReg (r : Reg) : s.painted.readReg r = s.readReg r := fillPixels_readReg ..
@[simp] theorem State.painted_build : s.painted.build = s.build := fillPixels_build ..
theorem State.painted_sameSurroundings : SameSurroundings s s.painted :=
  ⟨fillPixels_portMx .., fillPixels_portMy .., fillPixels_portClick .., fillPixels_heldKeys .., fillPixels_build ..,
    fillPixels_schedule ..⟩
end painted

theorem State.push_sameSurroundings (s : State) (v : Int) : SameSurroundings s (s.push v) :=
  ⟨s.push_portMx v, s.push_portMy v, s.push_portClick v, s.push_heldKeys v, s.push_build v, s.push_schedule v⟩

section frames
variable {s t : State}
theorem MovesPc.sameRegisters {p : Int} (h : MovesPc p s t) : SameRegisters s t :=
  have ⟨_, hregs, _⟩ := h
  hregs
theorem MovesPc.halted_eq {p : Int} (h : MovesPc p s t) : t.halted = s.halted :=
  have ⟨_, _, hhalted, _⟩ := h
  hhalted
theorem MovesPc.sameSurroundings {p : Int} (h : MovesPc p s t) : SameSurroundings s t :=
  have ⟨_, _, _, _, hsame⟩ := h
  hsame
theorem WritesRegister.readReg_eq {d : Reg} {v : Int} (h : WritesRegister d v s t) : t.readReg d = v := h.1
theorem WritesRegister.sameSurroundings {d : Reg} {v : Int} (h : WritesRegister d v s t) : SameSurroundings s t :=
  have ⟨_, _, _, _, _, hsame⟩ := h
  hsame
theorem SameSurroundings.build_eq (h : SameSurroundings s t) : t.build = s.build :=
  have ⟨_, _, _, _, hbuild, _⟩ := h
  hbuild
end frames

namespace Effect
variable {s t : State} {i : Instr}

/-- No effect touches a port, the build or the schedule. -/
theorem sameSurroundings (h : Effect s i t) : SameSurroundings s t := by
  cases h with
  | halts op1 op2 => exact ⟨rfl, rfl, rfl, rfl, rfl, rfl⟩
  | idles c op1 op2 => exact (advance_movesPc s).sameSurroundings
  | loads op1 v => exact (loadReg_writes op1 s v).sameSurroundings
  | transfers c op2 => exact (branchIf_movesPc op2 s c).sameSurroundings
  | calls op1 op2 => exact s.push_sameSurroundings _
  | paints op1 op2 => exact s.painted_sameSurroundings

/-- Only CALL and RECT write memory (20_memory.md R47). -/
theorem mem_eq (h : Effect s i t) (hi : writesMemory i = false) : t.mem = s.mem := by
  cases h with
  | halts op1 op2 => rfl
  | idles c op1 op2 => rfl
  | loads op1 v => rfl
  | transfers c op2 => exact branchIf_mem c op2 s
  | calls op1 op2 => cases hi
  | paints op1 op2 => cases hi

/-- Only the destination is written, and CALL's is the stack pointer (10_state.md R24). -/
theorem readReg_of_ne_destination (h : Effect s i t) {r : Reg} (hr : destination s.build i ≠ some r) :
    t.readReg r = s.readReg r := by
  cases h with
  | halts op1 op2 => rfl
  | idles c op1 op2 => rfl
  | loads op1 v dest =>
    rw [dest] at hr
    exact State.readReg_writeReg_ne s _ v fun e => hr (congrArg some e.symm)
  | transfers c op2 => exact (branchIf_movesPc op2 s c).sameRegisters r
  | calls op1 op2 =>
    exact (s.push_readReg _ r).trans (if_neg fun e => hr (congrArg some e.symm))
  | paints op1 op2 => exact s.painted_readReg r

/-- Only HALT touches `halted` (10_state.md R29). -/
theorem halted_eq_or (h : Effect s i t) : t.halted = s.halted ∨ ∃ op1 op2, i = .halt op1 op2 := by
  cases h with
  | halts op1 op2 => exact .inr ⟨op1, op2, rfl⟩
  | idles c op1 op2 => exact .inl rfl
  | loads op1 v => exact .inl rfl
  | transfers c op2 => exact .inl (branchIf_movesPc op2 s c).halted_eq
  | calls op1 op2 => exact .inl (s.push_halted _)
  | paints op1 op2 => exact .inl s.painted_halted

/-- `pc` advances by a slot or goes to the target of a transfer (44_control_transfer.md R125). -/
theorem pc_eq_or (h : Effect s i t) : t.pc = s.pc + 15 ∨ transferTarget i = some t.pc := by
  cases h with
  | halts op1 op2 => exact .inl rfl
  | idles c op1 op2 => exact .inl rfl
  | loads op1 v => exact .inl rfl
  | transfers c op2 target =>
    cases c with
    | false => exact .inl rfl
    | true => exact .inr target
  | calls op1 op2 => exact .inr rfl
  | paints op1 op2 => exact .inl (congrArg (· + 15) s.painted_pc)

theorem mem_wf (h : Effect s i t) (hs : s.mem.wf) : t.mem.wf := by
  cases h with
  | calls op1 op2 => exact State.push_mem_wf hs _
  | paints op1 op2 => exact fillPixels_mem_wf hs ..
  | halts op1 op2 => exact hs
  | idles c op1 op2 => exact hs
  | loads op1 v => exact hs
  | transfers c op2 => rwa [branchIf_mem]

theorem mem_lt (h : Effect s i t) (hs : ∀ c ∈ s.mem, c.1 < s.build.memSize) : ∀ c ∈ t.mem, c.1 < t.build.memSize := by
  cases h with
  | calls op1 op2 => exact State.push_mem_lt hs _
  | paints op1 op2 => exact fillPixels_mem_lt hs _ _ _ _
  | halts op1 op2 => exact hs
  | idles c op1 op2 => exact hs
  | loads op1 v => exact hs
  | transfers c op2 => cases c <;> exact hs

/-- Every register keeps to its range: what is loaded and the new stack pointer are in it (10_state.md R22). -/
theorem readReg_range (h : Effect s i t) (hs : ∀ r : Reg, inWordRange (s.readReg r)) (r : Reg) :
    inWordRange (t.readReg r) := by
  by_cases hr : destination s.build i = some r
  · cases h with
    | halts op1 op2 => cases hr
    | idles c op1 op2 => cases hr
    | loads op1 v dest keepsMem range =>
      obtain rfl : ri op1 = r := Option.some.inj (dest.symm.trans hr)
      rw [(loadReg_writes op1 s v).readReg_eq]
      exact range hs
    | transfers c op2 => rw [(branchIf_movesPc op2 s c).sameRegisters r]; exact hs r
    | calls op1 op2 =>
      rw [State.jump_readReg, State.push_readReg, if_pos (Option.some.inj hr).symm]
      exact clamp_range _
    | paints op1 op2 => cases hr
  · rw [h.readReg_of_ne_destination hr]
    exact hs r

end Effect

/-- Settles O40: each of the six effects leaves the surroundings as they were. -/
theorem noInstructionWritesAPort : Obligations.NoInstructionWritesAPort :=
  fun _ _ _ h => (Effect.of_exec h).sameSurroundings

/-- Settles O38: the same list of cells in the same build reads the same. -/
theorem onlyCallAndRectWriteMemory : Obligations.OnlyCallAndRectWriteMemory := by
  intro i s t h hi
  have effect := Effect.of_exec h
  have hmem := effect.mem_eq hi
  exact ⟨hmem, State.readCell_congr hmem effect.sameSurroundings.build_eq⟩

/-- Settles O39. -/
theorem onlyTheDestinationChanges : Obligations.OnlyTheDestinationChanges :=
  fun _ _ _ _ h => (Effect.of_exec h).readReg_of_ne_destination

/-! The transitions of the machine -/

/-- A CPU's transition of a halted machine is none; of a running one it is an effect of the fetched instruction. -/
theorem cpuStep_effect {s t : State} (h : cpuStep s = .next t) :
    (s.halted = true ∧ t = s) ∨ (s.halted = false ∧ Effect s s.fetch t) :=
  (cpuStep_cases h).imp_right fun ⟨hh, he⟩ => ⟨hh, .of_exec he⟩

theorem cpuStep_total (s : State) : ∃ t, cpuStep s = .next t := by
  cases hh : s.halted with
  | true => exact ⟨s, cpuStep_of_halted hh⟩
  | false =>
    obtain ⟨t, ht, -⟩ := exec_effect s.fetch s
    exact ⟨t, by rw [cpuStep, hh]; exact ht⟩

/-- Every transition of every agent goes on (60_exceptions.md R145). -/
theorem step_total (s : State) : ∃ t, step s = .next t := by
  unfold step
  split
  · exact cpuStep_total _
  · exact cpuStep_total _
  · exact ⟨_, rfl⟩
  · exact ⟨_, rfl⟩
  · exact ⟨_, rfl⟩

/-- Settles O32: each step goes on, so a run of any length does. -/
theorem noRunEverStops : Obligations.NoRunEverStops := by
  intro k
  induction k with
  | zero => exact fun s => ⟨s, rfl⟩
  | succ k ih =>
    intro s
    obtain ⟨u, hu⟩ := step_total s
    obtain ⟨t, ht⟩ := ih u
    exact ⟨t, (run_succ_of_next hu).trans ht⟩

/-- The state whose schedule's first move, if there is one, has been made (log entry 7). -/
def State.moved (s : State) : State := { s with schedule := s.schedule.tail }

theorem State.moved_of_nil {s : State} (hs : s.schedule = []) : s.moved = s := by
  rw [State.moved, hs, List.tail_nil, ← hs]

theorem State.moved_of_cons {s : State} {m : HostMove} {ms : List HostMove} (hs : s.schedule = m :: ms) :
    s.moved = { s with schedule := ms } := by
  rw [State.moved, hs, List.tail_cons]

/-- The transitions again, with both ways the CPU moves as one case: nothing, where the machine is halted, or an effect of
the instruction at `pc`. -/
theorem step_effect {s t : State} (h : step s = .next t) :
    ((s.schedule = [] ∨ ∃ ms, s.schedule = .cpuStep :: ms) ∧
      ((s.halted = true ∧ t = s.moved) ∨ (s.halted = false ∧ Effect s.moved s.fetch t))) ∨
    (∃ w ms, s.schedule = .bridge w :: ms ∧ t = s.moved.bridgeWrite w) ∨
    (∃ im ms, s.schedule = .launch im :: ms ∧ t = s.moved.launch im) ∨
    (∃ ms, s.schedule = .render :: ms ∧ t = s.moved) := by
  rcases step_cases h with ⟨hs, hcpu⟩ | ⟨ms, hs, hcpu⟩ | ⟨w, ms, hs, ht⟩ | ⟨im, ms, hs, ht⟩ | ⟨ms, hs, ht⟩
  · rw [State.moved_of_nil hs]
    exact .inl ⟨.inl hs, cpuStep_effect hcpu⟩
  all_goals rw [State.moved_of_cons hs]
  · exact .inl ⟨.inr ⟨ms, hs⟩, cpuStep_effect hcpu⟩
  · exact .inr (.inl ⟨w, ms, hs, ht⟩)
  · exact .inr (.inr (.inl ⟨im, ms, hs, ht⟩))
  · exact .inr (.inr (.inr ⟨ms, hs, ht⟩))

@[simp] theorem State.launch_some (s : State) (im : List ImageRecord) : s.launch (some im) = s.launchImage im := rfl

@[simp] theorem State.launch_build (s : State) (im : Option (List ImageRecord)) : (s.launch im).build = s.build := by
  cases im with
  | none => rfl
  | some im => exact s.launchImage_build im

/-- Settles O45: the CPU keeps its surroundings, and the other agents write other fields. -/
theorem noStepChangesTheBuild : Obligations.NoStepChangesTheBuild := by
  intro s t h
  rcases step_effect h with ⟨-, ⟨-, rfl⟩ | ⟨-, effect⟩⟩ | ⟨w, ms, -, rfl⟩ | ⟨im, ms, -, rfl⟩ | ⟨ms, -, rfl⟩
  · rfl
  · exact effect.sameSurroundings.build_eq
  · exact s.moved.bridgeWrite_build w
  · exact s.moved.launch_build im
  · rfl

/-- A HALT is fetched only where the opcode field is 0 (30_encoding.md R66). -/
theorem State.memRead_of_fetch_halt {s : State} {op1 op2 : Int} (h : s.fetch = .halt op1 op2) :
    s.memRead s.pc 4 = 0 := by
  obtain ⟨hopcode, -, -⟩ := decodeFields_fields (s.memRead s.pc 4) (s.memRead (s.pc + 4) 5) (s.memRead (s.pc + 9) 6)
  exact hopcode.symm.trans (congrArg Instr.opcodeNumber h)

/-- A transition that leaves `halted` as it was neither enters Halted nor leaves it. -/
theorem halted_frame {s t : State} (h : t.halted = s.halted) (P Q : Prop) :
    (s.halted = false → t.halted = true → P) ∧ (s.halted = true → t.halted = false → Q) := by
  rw [h]
  constructor <;> intro h1 h2 <;> cases h1.symm.trans h2

/-- Settles O37: of the CPU's effects only HALT's touches `halted`, and of the other agents' moves only the launch of an
image does. -/
theorem onlyHaltAndLaunchChangeHalted : Obligations.OnlyHaltAndLaunchChangeHalted := by
  intro s t h
  rcases step_effect h with ⟨hcpu, ⟨-, rfl⟩ | ⟨hrun, effect⟩⟩ | ⟨w, ms, -, rfl⟩ | ⟨im, ms, hs, rfl⟩ | ⟨ms, -, rfl⟩
  · exact halted_frame rfl _ _
  · rcases effect.halted_eq_or with heq | ⟨op1, op2, hhalt⟩
    · exact halted_frame heq _ _
    · exact ⟨fun _ _ => ⟨hcpu, State.memRead_of_fetch_halt hhalt⟩, fun hhalted => nomatch hrun.symm.trans hhalted⟩
  · exact halted_frame (s.moved.bridgeWrite_halted w) _ _
  · cases im with
    | none => exact halted_frame rfl _ _
    | some im => exact ⟨fun _ hhalted => (nomatch hhalted), fun _ _ => ⟨im, ms, hs⟩⟩
  · exact halted_frame rfl _ _

/-- Settles O42: 15 more is a multiple of 15, a transfer's target is one by hypothesis, a launch goes to BOOT_ADDR, and
nothing else touches `pc`. -/
theorem alignedPcStaysAligned : Obligations.AlignedPcStaysAligned := by
  intro s t hboot hpc htarget h
  rcases step_effect h with ⟨-, ⟨-, rfl⟩ | ⟨-, effect⟩⟩ | ⟨w, ms, -, rfl⟩ | ⟨im, ms, -, rfl⟩ | ⟨ms, -, rfl⟩
  · exact hpc
  · rcases effect.pc_eq_or with hnext | hjump
    · rw [hnext, Int.add_emod_right]
      exact hpc
    · exact htarget _ hjump
  · rwa [State.bridgeWrite_pc]
  · cases im with
    | none => exact hpc
    | some im =>
      show (s.build.bootAddr : Int) % 15 = 0
      omega
  · exact hpc

/-- The target of a transfer is its operand-2 field, neither scaled nor relative (30_encoding.md R64). -/
theorem op2Field_of_transferTarget {i : Instr} {target : Int} (h : transferTarget i = some target) :
    i.op2Field = target := by
  cases i <;> cases h <;> rfl

/-- A fetched transfer reaches what six trits hold (44_control_transfer.md R132). -/
theorem State.transferTarget_fetch_range {s : State} {target : Int} (h : transferTarget s.fetch = some target) :
    -364 ≤ target ∧ target ≤ 364 := by
  obtain ⟨-, -, hop2⟩ := decodeFields_fields (s.memRead s.pc 4) (s.memRead (s.pc + 4) 5) (s.memRead (s.pc + 9) 6)
  rw [← op2Field_of_transferTarget h, State.fetch, hop2]
  exact s.memRead_range (s.pc + 9) 6

/-- Settles O43: each effect advances `pc` or takes it to the operand-2 field of the fetched transfer. -/
theorem transfersReachSixTrits : Obligations.TransfersReachSixTrits := by
  intro s t hs hh h
  exact (Effect.of_exec ((step_of_running hs hh).symm.trans h)).pc_eq_or.imp_right State.transferTarget_fetch_range

/-! The invariant -/

/-- The parts of the invariant about ports, keys and coming moves do not see a change of memory or registers. -/
theorem State.Inv.of_sameSurroundings {s t : State} (hs : s.Inv) (hsame : SameSurroundings s t) (hwf : t.mem.wf)
    (hlt : ∀ c ∈ t.mem, c.1 < t.build.memSize) (hregs : ∀ r : Reg, inWordRange (t.readReg r)) : t.Inv := by
  obtain ⟨-, -, -, hmx, hmy, hclick, hkeys, hmoves⟩ := hs
  obtain ⟨emx, emy, eclick, ekeys, -, eschedule⟩ := hsame
  refine ⟨hwf, hlt, hregs, ?_, ?_, ?_, ?_, ?_⟩
  · rwa [emx]
  · rwa [emy]
  · rwa [eclick]
  · rwa [ekeys]
  · rwa [eschedule]

theorem Effect.keeps_inv {s t : State} {i : Instr} (h : Effect s i t) (hs : s.Inv) : t.Inv :=
  have ⟨hwf, hlt, hregs, _⟩ := hs
  hs.of_sameSurroundings h.sameSurroundings (h.mem_wf hwf) (h.mem_lt hlt) (h.readReg_range hregs)

/-- The moves that are left are among those that were to come. -/
theorem State.Inv.moved {s : State} (hs : s.Inv) : s.moved.Inv :=
  have ⟨hwf, hlt, hregs, hmx, hmy, hclick, hkeys, hmoves⟩ := hs
  ⟨hwf, hlt, hregs, hmx, hmy, hclick, hkeys, fun m hm => hmoves m (List.mem_of_mem_tail hm)⟩

theorem State.Inv.bridgeWrite {s : State} (hs : s.Inv) {w : PortWrite} (hw : (HostMove.bridge w).wf = true) :
    (s.bridgeWrite w).Inv := by
  obtain ⟨hwf, hlt, hregs, hmx, hmy, hclick, hkeys, hmoves⟩ := hs
  cases w with
  | mouseX v => exact ⟨hwf, hlt, hregs, of_decide_eq_true hw, hmy, hclick, hkeys, hmoves⟩
  | mouseY v => exact ⟨hwf, hlt, hregs, hmx, of_decide_eq_true hw, hclick, hkeys, hmoves⟩
  | click v => exact ⟨hwf, hlt, hregs, hmx, hmy, of_decide_eq_true hw, hkeys, hmoves⟩
  | key code down =>
    cases down with
    | true => exact ⟨hwf, hlt, hregs, hmx, hmy, hclick, insertKey_pairwise hkeys, hmoves⟩
    | false => exact ⟨hwf, hlt, hregs, hmx, hmy, hclick, removeKey_pairwise hkeys, hmoves⟩

theorem inWordRange_zero : inWordRange 0 := by decide

theorem State.launchImage_sameSurroundings (s : State) (im : List ImageRecord) :
    SameSurroundings s (s.launchImage im) :=
  ⟨s.launchImage_portMx im, s.launchImage_portMy im, s.launchImage_portClick im, s.launchImage_heldKeys im,
    s.launchImage_build im, s.launchImage_schedule im⟩

theorem State.Inv.launch {s : State} (hs : s.Inv) (im : Option (List ImageRecord)) : (s.launch im).Inv := by
  cases im with
  | none => exact hs
  | some im =>
    have ⟨hwf, hlt, _⟩ := hs
    refine hs.of_sameSurroundings (s.launchImage_sameSurroundings im) (State.launchImage_mem_wf hwf im)
      (State.launchImage_mem_lt hlt im) fun r => ?_
    rw [State.launch_some, State.launchImage_readReg]
    exact inWordRange_zero

/-- A move that the invariant lets the schedule hold is one its agent may make. -/
theorem State.Inv.move_wf {s : State} (hs : s.Inv) {m : HostMove} {ms : List HostMove} (h : s.schedule = m :: ms) :
    m.wf = true :=
  have ⟨_, _, _, _, _, _, _, hmoves⟩ := hs
  hmoves m (h ▸ List.mem_cons_self)

/-- Settles O35: the CPU by the six effects, the bridge port by port, the loader by what its launch leaves, and the
renderer since it writes nothing. -/
theorem everyStepKeepsInvariant : Obligations.EveryStepKeepsInvariant := by
  intro s t hs h
  rcases step_effect h with ⟨-, ⟨-, rfl⟩ | ⟨-, effect⟩⟩ | ⟨w, ms, hms, rfl⟩ | ⟨im, ms, -, rfl⟩ | ⟨ms, -, rfl⟩
  · exact hs.moved
  · exact effect.keeps_inv hs.moved
  · exact hs.moved.bridgeWrite (hs.move_wf hms)
  · exact hs.moved.launch im
  · exact hs.moved

end Sys2Proof.Machine
end

section
/-! PROOFS. The fetch and the step (41_step_cycle.md), the trits that no instruction looks at (30_encoding.md R69), the
power-on state (70_reset_and_hazards.md R165), and the ports that only the POLLs see (45_io_instructions.md R135). -/

namespace Sys2Proof.Machine

/-! What the CPU fetches -/

theorem cpuStep_of_running {s : State} (hh : s.halted = false) : cpuStep s = exec s.fetch s := by
  rw [cpuStep, hh]; rfl

/-- The fetch finds what the fifteen cells at `pc` decode to. -/
theorem State.fetch_of_decode {s : State} {i : Instr} (h : decode (s.readTrits s.pc 15) = .ok i) : s.fetch = i :=
  Except.ok.inj ((decode_fetchedTrits s).symm.trans h)

/-- Settles O30: the CPU's transition is `exec` of the fetch, which no move of the schedule changes. -/
theorem stepRunsDecodedInstruction : Obligations.StepRunsDecodedInstruction := by
  intro s i hh hdecode
  have hfetch : s.fetch = i := State.fetch_of_decode hdecode
  refine ⟨fun hs => ?_, fun ms hs => ?_⟩
  · rw [step_of_running hs hh, hfetch]
  · rw [step_of_schedule_cpuStep hs]
    exact (cpuStep_of_running (s := { s with schedule := ms }) hh).trans (congrArg (exec · _) hfetch)

/-- Cells that all read 0 decode to 0. -/
theorem State.memRead_of_zero_cells {s : State} {a : Int} {n : Nat}
    (h : ∀ k : Nat, k < n → s.readCell (a + (k : Int)) = .zero) : s.memRead a n = 0 := by
  have htrits : s.readTrits a n = List.replicate n .zero := by
    refine List.eq_replicate_iff.2 ⟨s.readTrits_length a n, fun t ht => ?_⟩
    obtain ⟨k, hk, rfl⟩ := List.mem_map.1 ht
    exact h k (List.mem_range.1 hk)
  rw [State.memRead, htrits, tritsValue_replicate_zero]

/-- Fifteen cells that read 0 are a HALT (10_state.md R28, 70_reset_and_hazards.md R165). -/
theorem State.fetch_of_zero_cells {s : State} (h : ∀ k : Nat, k < 15 → s.readCell (s.pc + (k : Int)) = .zero) :
    s.fetch = .halt 0 0 := by
  have field (m n : Nat) (hmn : m + n ≤ 15) : s.memRead (s.pc + (m : Int)) n = 0 := by
    refine State.memRead_of_zero_cells fun k hk => ?_
    rw [add_assoc, ← Nat.cast_add]
    exact h (m + k) (by omega)
  have hopcode : s.memRead s.pc 4 = 0 := State.memRead_of_zero_cells fun k hk => h k (by omega)
  have hop1 : s.memRead (s.pc + 4) 5 = 0 := field 4 5 (by omega)
  have hop2 : s.memRead (s.pc + 9) 6 = 0 := field 9 6 (by omega)
  rw [State.fetch, hopcode, hop1, hop2]
  rfl

/-- A running machine at fifteen cells that read 0 halts. -/
theorem step_of_zero_cells {s : State} (hs : s.schedule = []) (hh : s.halted = false)
    (h : ∀ k : Nat, k < 15 → s.readCell (s.pc + (k : Int)) = .zero) : step s = .next (s.setHalted true).advance := by
  rw [step_of_running hs hh, State.fetch_of_zero_cells h, exec_halt]

/-- Settles O33: cells that memory does not have read 0. -/
theorem fetchOutsideMemoryHalts : Obligations.FetchOutsideMemoryHalts := by
  intro s hs hh hpc
  exact step_of_zero_cells hs hh fun k hk => s.readCell_outside (by omega)

/-! The trits an instruction ignores -/

section wrap
variable (a b k m : Int) (s : State)
theorem loadReg_add_mul (v : Int) : loadReg (a + 27 * k) v s = loadReg a v s := by
  rw [loadReg, regOperand1, ri_add_mul]; rfl
theorem binaryOp_add_mul (f : Int → Int → Int) :
    binaryOp f (a + 27 * k) (b + 27 * m) s = binaryOp f a b s := by
  rw [binaryOp, regOperand1, regOperand2, ri_add_mul, ri_add_mul]; rfl
end wrap

/-- Settles O34: the arms of HALT, RECT, JMP, CALL, NEG and the no-op do not name the operand, and a register operand
counts modulo 27. -/
theorem ignoredTritsHaveNoEffect : Obligations.IgnoredTritsHaveNoEffect := by
  intro s
  refine ⟨fun _ _ _ _ => rfl, fun _ _ _ _ => rfl, fun _ _ _ _ _ _ => rfl, fun _ _ _ => rfl, fun _ _ _ => rfl,
    fun a b c k => ?neg, fun a b k m => ?add, fun a b k m => ?sub, fun a b k m => ?mul, fun a b k m => ?div,
    fun a b k m => ?tri, fun a b k m => ?cpy, fun a b k => ?set, fun a b k => ?brn, fun a b k => ?brp,
    fun a b k => ?pollMouse, fun a b k => ?pollKey⟩
  case neg => rw [exec_neg, ri_add_mul, loadReg_add_mul, exec_neg]
  case add => exact congrArg _ (binaryOp_add_mul a b k m s _)
  case sub => exact congrArg _ (binaryOp_add_mul a b k m s _)
  case mul => exact congrArg _ (binaryOp_add_mul a b k m s _)
  case div => exact congrArg _ (binaryOp_add_mul a b k m s _)
  case tri => exact congrArg _ (binaryOp_add_mul a b k m s _)
  case cpy => rw [exec_cpy, ri_add_mul, loadReg_add_mul, exec_cpy]
  case set => exact congrArg _ (loadReg_add_mul a k s _)
  case brn => rw [exec_brn, ri_add_mul, exec_brn]
  case brp => rw [exec_brp, ri_add_mul, exec_brp]
  case pollMouse => exact congrArg _ (loadReg_add_mul a k s _)
  case pollKey => exact congrArg _ (loadReg_add_mul a k s _)

/-! Power-on -/

@[simp] theorem State.powerOn_readReg (b : Build) (r : Reg) : (State.powerOn b).readReg r = 0 := by
  simp [State.readReg]

/-- Every cell reads 0 at power-on (70_reset_and_hazards.md R165). -/
@[simp] theorem State.powerOn_readCell (b : Build) (a : Int) : (State.powerOn b).readCell a = .zero := by
  rw [State.readCell, State.powerOn_mem]
  exact ite_self _

theorem State.powerOn_inv (b : Build) : (State.powerOn b).Inv := by
  refine ⟨Memory.wf_nil, fun _ hc => (List.not_mem_nil hc).elim, fun r => ?_, inWordRange_zero, inWordRange_zero,
    inWordRange_zero, List.Pairwise.nil, fun _ hm => (List.not_mem_nil hm).elim⟩
  rw [State.powerOn_readReg]
  exact inWordRange_zero

/-- Settles O36: reset is the power-on of REF. -/
theorem resetMeetsInvariant : Obligations.ResetMeetsInvariant := ⟨State.powerOn_inv refBuild, State.powerOn_inv⟩

/-- Settles O46. -/
theorem resetIsPowerOn : Obligations.ResetIsPowerOn :=
  ⟨fun b => ⟨State.powerOn_readReg b, State.powerOn_readCell b, rfl, rfl, rfl, rfl, rfl, rfl, rfl, rfl⟩, rfl, by decide⟩

/-- Settles O47: the fifteen cells at BOOT_ADDR read 0 at power-on, as every cell does. -/
theorem firstStepAfterPowerOnHalts : Obligations.FirstStepAfterPowerOnHalts :=
  fun b => step_of_zero_cells rfl rfl fun _ _ => State.powerOn_readCell b _

/-- Settles O52: the renderer's arm only takes the move off the schedule. -/
theorem rendererChangesNothing : Obligations.RendererChangesNothing := by
  intro s ms hs
  unfold step; rw [hs]

/-! The ports that only the POLLs see -/

section withPorts
variable (s : State) (mx my click : Int) (held : List Int)

theorem State.withPorts_writeCell (a : Int) (t : Trit) :
    (s.withPorts mx my click held).writeCell a t = (s.writeCell a t).withPorts mx my click held := by
  have hin : (s.withPorts mx my click held).inMemory a = s.inMemory a := rfl
  rw [State.writeCell, State.writeCell, hin]
  split <;> rfl

theorem State.withPorts_writeTrits (a : Int) (ts : List Trit) :
    (s.withPorts mx my click held).writeTrits a ts = (s.writeTrits a ts).withPorts mx my click held := by
  induction ts generalizing s a with
  | nil => rfl
  | cons t ts ih => rw [State.writeTrits, State.withPorts_writeCell, ih, State.writeTrits]

theorem State.withPorts_push (v : Int) :
    (s.withPorts mx my click held).push v = (s.push v).withPorts mx my click held :=
  State.withPorts_writeTrits (s.writeReg s.build.spIndex (clamp (s.readReg s.build.spIndex - 15))) mx my click held _ _

theorem fillPixels_withPorts (ps : List (Int × Int)) (r g b : Int) :
    fillPixels ps r g b (s.withPorts mx my click held) = (fillPixels ps r g b s).withPorts mx my click held := by
  induction ps generalizing s with
  | nil => rfl
  | cons p ps ih =>
    have hpixel : (s.withPorts mx my click held).writePixel p.1 p.2 r g b =
        (s.writePixel p.1 p.2 r g b).withPorts mx my click held := by
      rw [State.writePixel_eq, State.writePixel_eq, State.withPorts_build, State.withPorts_writeTrits]
    exact (congrArg (fillPixels ps r g b) hpixel).trans (ih _)

theorem State.withPorts_painted :
    (s.withPorts mx my click held).painted = s.painted.withPorts mx my click held :=
  fillPixels_withPorts s mx my click held ..

theorem branchIf_withPorts (c : Bool) (op2 : Int) :
    branchIf c op2 (s.withPorts mx my click held) = (branchIf c op2 s).withPorts mx my click held := by
  cases c <;> rfl

/-- An instruction that reads no port runs on the state with other ports as on the state itself: the record updates of a
load commute with those of the ports, and so do the writes of CALL and RECT. -/
theorem exec_withPorts (i : Instr) (hi : readsPort i = false) :
    ∃ t, exec i s = .next t ∧ exec i (s.withPorts mx my click held) = .next (t.withPorts mx my click held) := by
  cases i with
  | halt a b => exact ⟨_, exec_halt a b s, rfl⟩
  | add a b => exact ⟨_, exec_add a b s, rfl⟩
  | sub a b => exact ⟨_, exec_sub a b s, rfl⟩
  | mul a b => exact ⟨_, exec_mul a b s, rfl⟩
  | div a b => exact ⟨_, exec_div a b s, rfl⟩
  | neg a b => exact ⟨_, exec_neg a b s, rfl⟩
  | set a b => exact ⟨_, exec_set a b s, rfl⟩
  | cpy a b => exact ⟨_, exec_cpy a b s, rfl⟩
  | jmp a b => exact ⟨_, exec_jmp a b s, rfl⟩
  | brn a b => exact ⟨_, exec_brn a b s, congrArg _ (branchIf_withPorts s mx my click held _ b)⟩
  | brp a b => exact ⟨_, exec_brp a b s, congrArg _ (branchIf_withPorts s mx my click held _ b)⟩
  | tri a b => exact ⟨_, exec_tri a b s, rfl⟩
  | call a b => exact ⟨_, exec_call a b s, by rw [exec_call, State.withPorts_pc, State.withPorts_push]; rfl⟩
  | rect a b => exact ⟨_, exec_rect a b s, by rw [exec_rect, State.withPorts_painted]; rfl⟩
  | pollMouse a b => cases hi
  | pollKey a b => cases hi
  | unknownOpcode c a b => exact ⟨_, exec_unknownOpcode c a b s, rfl⟩
end withPorts

/-- Settles O41. -/
theorem portsAreUnseenWithoutPolls : Obligations.PortsAreUnseenWithoutPolls := by
  intro i s t mx my click held hi h
  obtain ⟨u, hu, hports⟩ := exec_withPorts s mx my click held i hi
  obtain rfl : u = t := Host.Outcome.next.inj (hu.symm.trans h)
  exact hports

end Sys2Proof.Machine
end

section
/-! PROOFS. DIV and TRI (42_arithmetic.md R114, R116): the quotient that a build may write, and the comparison. -/

namespace Sys2Proof.Machine

/-! The quotient -/

theorem sign_eq_intSign (v : Int) : sign v = v.sign := by
  rcases sign_cases v with ⟨hv, h⟩ | ⟨rfl, h⟩ | ⟨hv, h⟩
  · rw [h, Int.sign_eq_neg_one_of_neg hv]
  · rw [h, Int.sign_zero]
  · rw [h, Int.sign_eq_one_of_pos hv]

/-- Truncation as sign and size, each computed on its own. -/
theorem tdiv_eq_sign_mul (n d : Int) : n.tdiv d = sign n * sign d * ((n.natAbs / d.natAbs : Nat) : Int) := by
  rw [← Int.sign_mul_natAbs (n.tdiv d), Int.natAbs_tdiv, Int.sign_tdiv, sign_eq_intSign, sign_eq_intSign]
  split
  · next hlt =>
    have hzero : n.natAbs / d.natAbs = 0 := Nat.div_eq_of_lt hlt
    rw [hzero, zero_mul, Nat.cast_zero, mul_zero]
  · rfl

theorem divQ_of_dvd (mode : DivRound) {n d : Int} (h : d ∣ n) : divQ mode n d = n / d :=
  if_pos (Int.emod_eq_zero_of_dvd h)

/-- A `towardZero` build truncates, exact quotients included. -/
theorem divQ_towardZero (n d : Int) : divQ .towardZero n d = n.tdiv d := by
  by_cases hdvd : d ∣ n
  · rw [divQ_of_dvd _ hdvd, Int.tdiv_eq_ediv_of_dvd hdvd]
  · rw [divQ, if_neg (mt Int.dvd_of_emod_eq_zero hdvd), tdiv_eq_sign_mul]

/-- A `floored` build floors, exact quotients included. -/
theorem divQ_floored (n d : Int) : divQ .floored n d = n.fdiv d := by
  by_cases hdvd : d ∣ n
  · rw [divQ_of_dvd _ hdvd, Int.fdiv_eq_ediv_of_dvd hdvd]
  · rw [divQ, if_neg (mt Int.dvd_of_emod_eq_zero hdvd)]

/-- A `free` build takes the floored quotient or the integer after it. -/
theorem divQ_free_of_not_dvd {n d : Int} (h : ¬d ∣ n) :
    divQ .free n d = n.fdiv d ∨ divQ .free n d = n.fdiv d + 1 := by
  rw [divQ, if_neg (mt Int.dvd_of_emod_eq_zero h)]
  show (if _ then _ else _) = _ ∨ (if _ then _ else _) = _
  split
  · exact .inr rfl
  · exact .inl rfl

theorem abs_sub_tdiv_mul_lt (n : Int) {d : Int} (hd : d ≠ 0) : |n - n.tdiv d * d| < |d| := by
  have hmod := Int.tmod_add_mul_tdiv n d
  have hrem : n - n.tdiv d * d = n.tmod d := by linarith
  have hlt := Nat.mod_lt n.natAbs (Int.natAbs_pos.2 hd)
  rw [hrem, Int.abs_eq_natAbs, Int.abs_eq_natAbs, Int.natAbs_tmod]
  exact_mod_cast hlt

/-- The two integers next to an inexact quotient are both within one divisor of the operand. -/
theorem abs_sub_fdiv_mul_lt {n d : Int} (hd : d ≠ 0) (hdvd : ¬d ∣ n) :
    |n - n.fdiv d * d| < |d| ∧ |n - (n.fdiv d + 1) * d| < |d| := by
  have hmod := Int.emod_add_mul_ediv n d
  have hpos : 0 < n % d := lt_of_le_of_ne (Int.emod_nonneg n hd) fun e => hdvd (Int.dvd_of_emod_eq_zero e.symm)
  have hlt := Int.emod_lt_abs n hd
  rw [Int.fdiv_eq_ediv]
  rcases lt_or_gt_of_ne hd with hneg | hpos'
  · rw [abs_of_neg hneg] at hlt
    rw [if_neg (by simp [hdvd, hneg]), abs_of_neg hneg, abs_lt, abs_lt]
    refine ⟨⟨?_, ?_⟩, ?_, ?_⟩ <;> linarith
  · rw [abs_of_pos hpos'] at hlt
    rw [if_pos (.inl hpos'.le), abs_of_pos hpos', abs_lt, abs_lt]
    refine ⟨⟨?_, ?_⟩, ?_, ?_⟩ <;> linarith

/-- Every build's quotient is within one divisor of the operand (D7): the quotient is exact or one of its neighbours. -/
theorem abs_sub_divQ_mul_lt (mode : DivRound) (n : Int) {d : Int} (hd : d ≠ 0) : |n - divQ mode n d * d| < |d| := by
  by_cases hdvd : d ∣ n
  · rw [divQ_of_dvd mode hdvd, Int.ediv_mul_cancel hdvd, sub_self, abs_zero]
    exact abs_pos.2 hd
  · obtain ⟨hlower, hupper⟩ := abs_sub_fdiv_mul_lt hd hdvd
    cases mode with
    | towardZero => rw [divQ_towardZero]; exact abs_sub_tdiv_mul_lt n hd
    | floored => rwa [divQ_floored]
    | free => rcases divQ_free_of_not_dvd hdvd with h | h <;> rwa [h]

theorem quotient_zero (mode : DivRound) (n : Int) : quotient mode n 0 = 0 := if_pos rfl

theorem quotient_of_ne_zero (mode : DivRound) (n : Int) {d : Int} (hd : d ≠ 0) : quotient mode n d = divQ mode n d :=
  if_neg hd

/-- A number within one divisor of n, in multiples of the divisor, is no larger than n: a larger one would be off by more. -/
theorem abs_le_of_abs_sub_mul_lt {n d q : Int} (h : |n - q * d| < |d|) : |q| ≤ |n| := by
  have hd : 1 ≤ |d| := Int.one_le_abs fun e => by
    rw [e, abs_zero] at h
    exact (abs_nonneg _).not_gt h
  have hprod : |q| * |d| < |n| + |d| := by
    calc |q| * |d| = |n - (n - q * d)| := by rw [← abs_mul, sub_sub_cancel]
      _ ≤ |n| + |n - q * d| := abs_sub _ _
      _ < |n| + |d| := by linarith
  by_contra hlt
  have hbig : (|n| + 1) * |d| ≤ |q| * |d| := Int.mul_le_mul_of_nonneg_right (by omega) (abs_nonneg d)
  have hn : |n| * 1 ≤ |n| * |d| := Int.mul_le_mul_of_nonneg_left hd (abs_nonneg n)
  linarith

theorem abs_quotient_le (mode : DivRound) (n d : Int) : |quotient mode n d| ≤ |n| := by
  by_cases hd : d = 0
  · rw [hd, quotient_zero, abs_zero]
    exact abs_nonneg n
  · rw [quotient_of_ne_zero mode n hd]
    exact abs_le_of_abs_sub_mul_lt (abs_sub_divQ_mul_lt mode n hd)

/-- The quotient of a register's value is one: no rounding leaves the range (42_arithmetic.md R114). -/
theorem inWordRange_quotient (mode : DivRound) {n : Int} (d : Int) (h : inWordRange n) :
    inWordRange (quotient mode n d) :=
  abs_le.1 ((abs_quotient_le mode n d).trans (abs_le.2 h))

/-- Settles O15: DIV is the arithmetic shape with the clamped quotient, and `clamp` does nothing to a quotient that is no
larger than its operand. -/
theorem divWritesAdmissibleQuotient : Obligations.DivWritesAdmissibleQuotient := by
  intro op1 op2 s
  have hwrites := binaryOp_writes (fun n d => clamp (quotient s.build.divRound n d)) op1 op2 s
  refine ⟨encode_of_opcodeNumber (c := 4) rfl (by decide), _,
    quotient s.build.divRound (s.readReg (ri op1)) (s.readReg (ri op2)), exec_div op1 op2 s, hwrites,
    fun hd => ?zero, fun hd hdvd => ?exact, fun hd => ?near, fun hd hmode => ?truncated, fun hd hmode => ?floored,
    fun hrange => hwrites.readReg_eq.trans (clamp_eq_self (inWordRange_quotient _ _ hrange))⟩
  case zero => rw [hd, quotient_zero]
  case exact => rw [quotient_of_ne_zero _ _ hd, divQ_of_dvd _ hdvd, Int.ediv_mul_cancel hdvd]
  case near => rw [quotient_of_ne_zero _ _ hd]; exact abs_sub_divQ_mul_lt _ _ hd
  case truncated => rw [quotient_of_ne_zero _ _ hd, hmode, divQ_towardZero]
  case floored => rw [quotient_of_ne_zero _ _ hd, hmode, divQ_floored]

/-- Settles O17: TRI is the arithmetic shape with the sign of the exact difference. -/
theorem triComparesRegisters : Obligations.TriComparesRegisters := by
  intro op1 op2 s
  refine ⟨encode_of_opcodeNumber (c := 23) rfl (by decide), _, _, exec_tri op1 op2 s, binaryOp_writes _ op1 op2 s, ?_⟩
  rcases sign_cases (s.readReg (ri op1) - s.readReg (ri op2)) with ⟨hd, hsign⟩ | ⟨hd, hsign⟩ | ⟨hd, hsign⟩ <;>
    rw [hsign] <;> omega

end Sys2Proof.Machine
end

section
/-! PROOFS. HALT and CALL (44_control_transfer.md R126, R130), and what the fetch after a CALL sees (20_memory.md R56). -/

namespace Sys2Proof.Machine

/-- Settles O20: HALT sets one field, and `pc` advances (D9). -/
theorem haltSetsHalted : Obligations.HaltSetsHalted := fun op1 op2 s =>
  ⟨encode_of_opcodeNumber (c := 0) rfl (by decide), _, exec_halt op1 op2 s, rfl, rfl, fun _ => rfl, fun _ => rfl,
    rfl, rfl, rfl, rfl, rfl, rfl⟩

section push
variable {s : State} (hw : s.mem.wf) (v : Int)
include hw

/-- Trit k of the pushed value lands k cells above the new stack pointer, where memory has the cell. -/
theorem State.push_readCell_inside {k : Nat} (hk : k < s.build.callPushLen)
    (hin : s.inMemory (clamp (s.readReg s.build.spIndex - 15) + (k : Int)) = true) :
    some ((s.push v).readCell (clamp (s.readReg s.build.spIndex - 15) + (k : Int))) =
      (balancedTrits s.build.callPushLen v)[k]? :=
  State.readCell_memWrite_eq_getElem? (s := s.writeReg s.build.spIndex (clamp (s.readReg s.build.spIndex - 15))) hw v hk
    hin

variable (hin : ∀ k : Nat, k < s.build.callPushLen →
  s.inMemory (clamp (s.readReg s.build.spIndex - 15) + (k : Int)) = true)
include hin

/-- A push that memory has every cell for stands at the new stack pointer. -/
theorem State.push_readTrits :
    (s.push v).readTrits (clamp (s.readReg s.build.spIndex - 15)) s.build.callPushLen =
      balancedTrits s.build.callPushLen v := by
  have h := State.readTrits_writeTrits (s.writeReg s.build.spIndex (clamp (s.readReg s.build.spIndex - 15))) hw
    (clamp (s.readReg s.build.spIndex - 15)) (balancedTrits s.build.callPushLen v)
    (by rwa [balancedTrits_length])
  rwa [balancedTrits_length] at h

theorem State.push_memRead :
    (s.push v).memRead (clamp (s.readReg s.build.spIndex - 15)) s.build.callPushLen = bal s.build.callPushLen v := by
  rw [State.memRead, State.push_readTrits hw v hin, tritsValue_balancedTrits]
end push

/-- Settles O24: CALL is the push of A + 15 and then the jump, which leaves registers and cells alone. -/
theorem callPushesReturnAddress : Obligations.CallPushesReturnAddress := by
  intro op1 op2 s
  refine ⟨encode_of_opcodeNumber (c := 24) rfl (by decide), fun hw => ⟨_, exec_call op1 op2 s, rfl, s.push_halted _,
    s.push_sameSurroundings _, ?_, fun r hr => ?_, fun k hk hin => State.push_readCell_inside hw _ hk hin,
    fun hin => State.push_memRead hw _ hin, fun a ha => s.push_readCell_outside _ ha⟩⟩
  · exact (s.push_readReg _ _).trans (if_pos rfl)
  · exact (s.push_readReg _ r).trans (if_neg hr)

/-- The fetched instruction is encoded by the fifteen cells at `pc`. -/
theorem State.encode_fetch (s : State) : encode s.fetch = s.readTrits s.pc 15 := by
  obtain ⟨i, hdecode, -, hencode⟩ := decode_of_length (s.readTrits_length s.pc 15)
  rw [State.fetch_of_decode hdecode, hencode]

/-- Settles O44: the cells that the next fetch reads are the fifteen that the push wrote. -/
theorem pushIsSeenByTheNextFetch : Obligations.PushIsSeenByTheNextFetch := by
  intro op1 op2 s hw hlen hsp hlo hhi
  have hin (k : Nat) (hk : k < s.build.callPushLen) :
      s.inMemory (clamp (s.readReg s.build.spIndex - 15) + (k : Int)) = true :=
    (s.inMemory_iff _).2 (by omega)
  have hpushed := State.push_readTrits hw (s.pc + 15) hin
  rw [hsp, hlen] at hpushed
  exact ⟨_, exec_call op1 op2 s, (State.encode_fetch _).trans hpushed⟩

end Sys2Proof.Machine
end

section
/-! PROOFS. The two POLLs (45_io_instructions.md R139, R140): both load what a port holds. -/

namespace Sys2Proof.Machine

/-- With REF's assignment the selectors 0, 1 and 2 name the three ports, and no other names one (D16). -/
theorem lookup_refMouseSelect_of_ne {op2 : Int} (hx : op2 ≠ 0) (hy : op2 ≠ 1) (hclick : op2 ≠ 2) :
    refMouseSelect.lookup op2 = none :=
  List.lookup_eq_none_iff.2 (by simp [refMouseSelect, hx, hy, hclick])

/-- Settles O28: POLL_MOUSE is the load shape with the value of the port that the selector names. -/
theorem pollMouseReadsSelectedPort : Obligations.PollMouseReadsSelectedPort := by
  intro op1 op2 s
  refine ⟨encode_of_opcodeNumber (c := 31) rfl (by decide), _, _, exec_pollMouse op1 op2 s, loadReg_writes op1 s _,
    mouseValue_range s _, fun h => ?_, fun h => ?_, fun h => ?_, fun h => ?_, fun href => ?_⟩
  · rw [h]; exact ⟨rfl, clamp_eq_self⟩
  · rw [h]; exact ⟨rfl, clamp_eq_self⟩
  · rw [h]; exact ⟨rfl, clamp_eq_self⟩
  · rw [h]; rfl
  · rw [href]
    refine ⟨?_, ?_, ?_, fun hx hy hclick => ?_⟩
    · rintro rfl; rfl
    · rintro rfl; rfl
    · rintro rfl; rfl
    · rw [lookup_refMouseSelect_of_ne hx hy hclick]; rfl

/-- A keycode is down where the list of those that are down has it (log entry 8). -/
theorem State.keyHeld_iff {s : State} {code : Int} : s.keyHeld code = true ↔ code ∈ s.heldKeys := List.contains_iff_mem

/-- Settles O29: POLL_KEY is the load shape with 13 or 0. -/
theorem pollKeyReadsKey : Obligations.PollKeyReadsKey := by
  intro op1 op2 s
  refine ⟨encode_of_opcodeNumber (c := 32) rfl (by decide), _, _, exec_pollKey op1 op2 s, loadReg_writes op1 s _,
    fun hdown => ?_, fun hup => ?_⟩
  · exact if_pos (State.keyHeld_iff.2 hdown)
  · exact if_neg (mt State.keyHeld_iff.1 hup)

end Sys2Proof.Machine
end

section
/-! PROOFS. RECT (45_io_instructions.md R136 to R138): where a pixel's nine cells are, and what the fill leaves in every
cell of memory. -/

namespace Sys2Proof.Machine

/-- Cells that hold given trits read as them. -/
theorem State.readTrits_of_cells {s : State} {a : Int} {n : Nat} {ts : List Trit} (hlen : ts.length = n)
    (h : ∀ k : Nat, k < n → some (s.readCell (a + (k : Int))) = ts[k]?) : s.readTrits a n = ts := by
  refine List.ext_getElem ((s.readTrits_length a n).trans hlen.symm) fun k hk hk' => ?_
  have hcell := h k (by rwa [State.readTrits_length] at hk)
  rw [List.getElem?_eq_getElem hk'] at hcell
  rw [State.readTrits_getElem]
  exact Option.some.inj hcell

/-- Cells that hold the encoding of v decode to its residue (40_codec.md R90). -/
theorem State.memRead_of_cells {s : State} {a : Int} {n : Nat} {v : Int}
    (h : ∀ k : Nat, k < n → some (s.readCell (a + (k : Int))) = (balancedTrits n v)[k]?) : s.memRead a n = bal n v := by
  rw [State.memRead, State.readTrits_of_cells (balancedTrits_length n v) h, tritsValue_balancedTrits]

/-- The nine cells of a pixel are cells of the framebuffer (20_memory.md R50): row q ends where row q + 1 starts, and that
is at most the region's end. -/
theorem pixelBase_bounds {b : Build} {p q : Int} (hp : 0 ≤ p) (hpw : p < (b.fbWidth : Int)) (hq : 0 ≤ q)
    (hqh : q < (b.fbHeight : Int)) :
    (b.fbBase : Int) ≤ pixelBase b p q ∧ pixelBase b p q + 9 ≤ (b.fbEnd : Int) := by
  have hrow : 0 ≤ q * (b.fbWidth : Int) := mul_nonneg hq (Int.natCast_nonneg _)
  have hrows : (q + 1) * (b.fbWidth : Int) ≤ (b.fbHeight : Int) * (b.fbWidth : Int) :=
    Int.mul_le_mul_of_nonneg_right (by omega) (Int.natCast_nonneg _)
  have hend : (b.fbEnd : Int) = (b.fbBase : Int) + 9 * ((b.fbHeight : Int) * (b.fbWidth : Int)) := by
    rw [Build.fbEnd]; push_cast; ring
  rw [add_mul, one_mul] at hrows
  rw [hend, pixelBase]
  constructor <;> linarith

/-- A cell of no covered pixel reads as before. -/
theorem State.painted_readCell_outside {s : State} {a : Int}
    (h : ∀ p q : Int, pixelCovered s.build (s.readReg 3) (s.readReg 4) (s.readReg 5) (s.readReg 6) p q →
      ¬(pixelBase s.build p q ≤ a ∧ a < pixelBase s.build p q + 9)) :
    s.painted.readCell a = s.readCell a :=
  readCell_fillPixels_outside s _ _ _ _ fun c hc => h c.1 c.2 (mem_clippedPixels.1 hc)

/-- The trit of the colour at the k-th cell of a pixel. -/
theorem pixelTritAt_pixelBase (b : Build) (red green blue p q : Int) {k : Nat} (hk : k < 9) :
    some (pixelTritAt b red green blue (pixelBase b p q + (k : Int))) = (pixelTrits red green blue)[k]? := by
  have hplace : ((pixelBase b p q + (k : Int) - (b.fbBase : Int)) % 9).toNat = k := by
    rw [pixelBase]
    omega
  have hlt : k < (pixelTrits red green blue).length := by rwa [pixelTrits_length]
  rw [pixelTritAt, hplace, List.getD_eq_getElem _ _ hlt, List.getElem?_eq_getElem hlt]

/-- Each cell that memory has of a covered pixel holds its trit of the colour. -/
theorem State.painted_readCell_inside {s : State} (hw : s.mem.wf) {p q : Int} {k : Nat}
    (hcovered : pixelCovered s.build (s.readReg 3) (s.readReg 4) (s.readReg 5) (s.readReg 6) p q) (hk : k < 9)
    (hin : s.inMemory (pixelBase s.build p q + (k : Int)) = true) :
    some (s.painted.readCell (pixelBase s.build p q + (k : Int))) =
      (pixelTrits (s.readReg 0) (s.readReg 1) (s.readReg 2))[k]? := by
  have hcell : pixelBase s.build p q ≤ pixelBase s.build p q + (k : Int) ∧
      pixelBase s.build p q + (k : Int) < pixelBase s.build p q + 9 := ⟨by omega, by omega⟩
  rw [← pixelTritAt_pixelBase s.build _ _ _ p q hk]
  exact congrArg some (readCell_fillPixels s hw _ _ _ _ hin ⟨(p, q), mem_clippedPixels.2 hcovered, hcell⟩)

/-- Nine cells that hold a colour's trits are a pixel of that colour, each channel truncated to three trits. -/
theorem State.pixel_of_cells {s : State} {p q red green blue : Int}
    (h : ∀ k : Nat, k < 9 → some (s.readCell (pixelBase s.build p q + (k : Int))) = (pixelTrits red green blue)[k]?) :
    s.pixel p q = (bal 3 red, bal 3 green, bal 3 blue) := by
  have channel (m : Nat) (v : Int) (hm : m + 3 ≤ 9)
      (hv : ∀ k : Nat, k < 3 → (pixelTrits red green blue)[m + k]? = (balancedTrits 3 v)[k]?) :
      s.memRead (pixelBase s.build p q + (m : Int)) 3 = bal 3 v := by
    refine State.memRead_of_cells fun k hk => ?_
    rw [← hv k hk, ← h (m + k) (by omega), add_assoc, ← Nat.cast_add]
  have hred : s.memRead (pixelBase s.build p q) 3 = bal 3 red := State.memRead_of_cells fun k hk => by
    rw [h k (by omega), pixelTrits, List.append_assoc, List.getElem?_append_left (by simpa using hk)]
  have hgreen : s.memRead (pixelBase s.build p q + 3) 3 = bal 3 green := channel 3 green (by omega) fun k hk => by
    rw [pixelTrits, List.append_assoc, List.getElem?_append_right (by simp), balancedTrits_length,
      Nat.add_sub_cancel_left, List.getElem?_append_left (by simpa using hk)]
  have hblue : s.memRead (pixelBase s.build p q + 6) 3 = bal 3 blue := channel 6 blue (by omega) fun k _ => by
    rw [pixelTrits, List.getElem?_append_right (by simp), List.length_append, balancedTrits_length,
      balancedTrits_length, Nat.add_sub_cancel_left]
  rw [State.pixel, hred, hgreen, hblue]

/-- Settles O26: every covered pixel's cells hold the colour's trits, and where the framebuffer is in memory they are the
whole pixel. -/
theorem rectPaintsClippedRectangle : Obligations.RectPaintsClippedRectangle := by
  intro op1 op2 s
  refine ⟨encode_of_opcodeNumber (c := 30) rfl (by decide), fun hw => ⟨_, exec_rect op1 op2 s,
    congrArg (· + 15) s.painted_pc, s.painted_halted, s.painted_readReg, s.painted_sameSurroundings,
    fun hfits p q hcovered => ?_, fun p q k hcovered hk hin => State.painted_readCell_inside hw hcovered hk hin,
    fun a ha => State.painted_readCell_outside ha⟩⟩
  have ⟨_, _, _, _, hp, hpw, hq, hqh⟩ := hcovered
  obtain ⟨hlo, hhi⟩ := pixelBase_bounds hp hpw hq hqh
  refine State.pixel_of_cells fun k hk => ?_
  rw [State.advance_readCell, State.advance_build, State.painted_build]
  exact State.painted_readCell_inside hw hcovered hk ((s.inMemory_iff _).2 (by omega))

/-- Settles O27: the covered pixels are the framebuffer's, and a rectangle without width or height covers none. -/
theorem rectStaysInTheFramebuffer : Obligations.RectStaysInTheFramebuffer := by
  intro op1 op2 s
  refine ⟨_, exec_rect op1 op2 s, fun a ha => State.painted_readCell_outside ?_,
    fun hempty a => State.painted_readCell_outside ?_⟩
  · rintro p q ⟨-, -, -, -, hp, hpw, hq, hqh⟩
    have := pixelBase_bounds hp hpw hq hqh
    omega
  · rintro p q ⟨hpx, hpw, hqy, hqh, -⟩
    omega

end Sys2Proof.Machine
end

section
/-! PROOFS. The launch of an image (70_reset_and_hazards.md R167 to R171): the cells of its slots, the cells around them, and
what a fetch finds at a record. -/

namespace Sys2Proof.Machine

/-- The fifteen trits of record k are the trits from 15 k on of the image's. -/
theorem imageTrits_getElem? {im : List ImageRecord} {k : Nat} {r : ImageRecord} (h : im[k]? = some r) {j : Nat}
    (hj : j < 15) : (imageTrits im)[15 * k + j]? = (recordTrits r)[j]? := by
  induction im generalizing k with
  | nil => cases h
  | cons r' im ih =>
    rw [imageTrits_cons]
    cases k with
    | zero =>
      obtain rfl : r' = r := Option.some.inj h
      rw [mul_zero, zero_add, List.getElem?_append_left (by simpa using hj)]
    | succ k =>
      have hindex : 15 * (k + 1) + j - (recordTrits r').length = 15 * k + j := by rw [recordTrits_length]; omega
      rw [List.getElem?_append_right (by rw [recordTrits_length]; omega), hindex]
      exact ih h

/-- Each cell that memory has of record k's slot holds its trit of the record. -/
theorem State.launchImage_readCell_slot {s : State} (hw : s.mem.wf) {im : List ImageRecord} {k : Nat} {r : ImageRecord}
    (h : im[k]? = some r) {j : Nat} (hj : j < 15)
    (hin : s.inMemory ((s.build.bootAddr : Int) + 15 * (k : Int) + (j : Int)) = true) :
    some ((s.launchImage im).readCell ((s.build.bootAddr : Int) + 15 * (k : Int) + (j : Int))) = (recordTrits r)[j]? := by
  have hk : k < im.length := (List.getElem?_eq_some_iff.1 h).1
  have haddr : (s.build.bootAddr : Int) + 15 * (k : Int) + (j : Int) =
      (s.build.bootAddr : Int) + ((15 * k + j : Nat) : Int) := by
    push_cast; ring
  rw [haddr] at hin ⊢
  rw [State.launchImage_readCell, ← imageTrits_getElem? h hj]
  exact State.readCell_writeTrits_eq_getElem? (s := (s.setHalted true).clearWindow) (Memory.clear_wf hw _ _) _
    (by rw [imageTrits_length]; omega) hin

/-- Around the image's slots the launch leaves the window cleared and every other cell as it was. -/
theorem State.launchImage_readCell_outside (s : State) {im : List ImageRecord} {a : Int}
    (h : ¬((s.build.bootAddr : Int) ≤ a ∧ a < (s.build.bootAddr : Int) + 15 * (im.length : Int))) :
    (s.launchImage im).readCell a =
      if (s.build.clearLo : Int) ≤ a ∧ a < (s.build.clearHi : Int) then .zero else s.readCell a := by
  rw [State.launchImage_readCell, State.readCell_writeTrits_outside _ _ (by rw [imageTrits_length]; push_cast; exact h),
    State.readCell_clearWindow]
  rfl

/-- Settles O48: the launch sets registers, `pc` and `halted`, keeps ports and build, and outside the image's slots memory
is the cleared window. -/
theorem launchResetsTheMachine : Obligations.LaunchResetsTheMachine := by
  intro s im ms hs
  refine ⟨_, step_of_schedule_launch hs, State.launchImage_readReg _ im, rfl, rfl, State.launchImage_portMx _ im,
    State.launchImage_portMy _ im, State.launchImage_portClick _ im, State.launchImage_heldKeys _ im,
    State.launchImage_build _ im, State.launchImage_schedule _ im, fun a ha => ?_⟩
  have hcell := State.launchImage_readCell_outside { s with schedule := ms } ha
  exact ⟨fun hwindow => hcell.trans (if_pos hwindow), fun hwindow => hcell.trans (if_neg hwindow)⟩

/-- Settles O49: the slot's cells hold the record's trits, and fifteen of them are what a fetch there decodes. -/
theorem launchedRecordsAreFetched : Obligations.LaunchedRecordsAreFetched := by
  intro s im k r hw hr
  refine ⟨fun j hj hin => State.launchImage_readCell_slot hw hr hj hin, fun j hout => ?_, fun hfits => ?_⟩
  · refine State.readCell_outside _ fun hin => ?_
    rw [State.launch_build] at hin
    exact absurd ((s.inMemory_iff _).2 hin) (by rw [hout]; decide)
  · have hslot : ((s.launchImage im).jump ((s.build.bootAddr : Int) + 15 * (k : Int))).readTrits
        ((s.build.bootAddr : Int) + 15 * (k : Int)) 15 = recordTrits r := by
      refine State.readTrits_of_cells (recordTrits_length r) fun j hj => ?_
      rw [State.jump_readCell]
      exact State.launchImage_readCell_slot hw hr hj ((s.inMemory_iff _).2 (by omega))
    exact State.fetch_of_decode ((congrArg decode hslot).trans (decode_encodeFields _ _ _))

/-- The image's slots end where its last record ends. -/
theorem imageEnd_cast (b : Build) (n : Nat) : (b.imageEnd n : Int) = (b.bootAddr : Int) + 15 * (n : Int) := by
  rw [Build.imageEnd]; push_cast; rfl

/-- In the cleared window and outside the image's slots a launch leaves 0. -/
theorem State.launchImage_readCell_cleared (s : State) {im : List ImageRecord} {a : Int}
    (himage : a < (s.build.bootAddr : Int) ∨ (s.build.imageEnd im.length : Int) ≤ a)
    (hlo : (s.build.clearLo : Int) ≤ a) (hhi : a < (s.build.clearHi : Int)) : (s.launchImage im).readCell a = .zero := by
  rw [imageEnd_cast] at himage
  rw [s.launchImage_readCell_outside (by omega), if_pos ⟨hlo, hhi⟩]

/-- Settles O58: the window covers the framebuffer and the cells after the image, and the image has no cell of either. -/
theorem launchClearsTheFramebuffer : Obligations.LaunchClearsTheFramebuffer := by
  intro s im hvalid hholds
  obtain ⟨-, -, -, -, -, -, -, -, hbootLo, hfbLo, hfbHi, -, -, -⟩ := hvalid
  have himage := imageEnd_cast s.build im.length
  have hframebuffer (a : Int) (hlo : (s.build.fbBase : Int) ≤ a) (hhi : a < (s.build.fbEnd : Int)) :
      (s.launchImage im).readCell a = .zero := by
    refine s.launchImage_readCell_cleared ?_ (by omega) (by omega)
    rcases hholds with hempty | ⟨hbefore | hafter, -, -⟩ <;> omega
  refine ⟨hframebuffer, fun p q hp hpw hq hqh => ?_, fun a hlo hhi => ?_⟩
  · obtain ⟨hlo, hhi⟩ := pixelBase_bounds hp hpw hq hqh
    have channel (m : Int) (hm : 0 ≤ m) (hm' : m ≤ 6) :
        (s.launchImage im).memRead (pixelBase s.build p q + m) 3 = 0 :=
      State.memRead_of_zero_cells fun k hk => hframebuffer _ (by omega) (by omega)
    have hred := channel 0 (by omega) (by omega)
    rw [add_zero] at hred
    rw [State.launch_some, State.pixel, State.launchImage_build, hred, channel 3 (by omega) (by omega),
      channel 6 (by omega) (by omega)]
  · exact s.launchImage_readCell_cleared (.inr hlo) (by omega) hhi

end Sys2Proof.Machine
end

section
/-! PROOFS. The input bridge's move (60_exceptions.md R157), and the host's word placed where the next step fetches (log
entries 9 and 10). -/

namespace Sys2Proof.Machine

/-- A bridge move leaves the schedule, and then the bridge writes its port (log entry 7). -/
theorem step_of_schedule_bridge {s : State} {w : PortWrite} {ms : List HostMove} (hs : s.schedule = .bridge w :: ms) :
    step s = .next (State.bridgeWrite { s with schedule := ms } w) := by
  unfold step; rw [hs]

/-- Which keycodes are down after the bridge writes one: that one as written, every other as before. -/
theorem State.keyHeld_bridgeWrite (s : State) (c : Int) (d : Bool) (k : Int) :
    (s.bridgeWrite (.key c d)).keyHeld k = if k = c then d else s.keyHeld k := by
  rw [Bool.eq_iff_iff, State.keyHeld_iff]
  cases d with
  | true =>
    rw [show (s.bridgeWrite (.key c true)).heldKeys = insertKey c s.heldKeys from rfl, mem_insertKey]
    split
    · next h => simp [h]
    · next h => simp [h, State.keyHeld_iff]
  | false =>
    rw [show (s.bridgeWrite (.key c false)).heldKeys = removeKey c s.heldKeys from rfl, mem_removeKey]
    split
    · next h => simp [h]
    · next h => simp [h, State.keyHeld_iff]

/-- The bridge writes no mouse port with a key. -/
theorem State.bridgeWrite_key_mouse (s : State) (c : Int) (d : Bool) :
    (s.bridgeWrite (.key c d)).portMx = s.portMx ∧ (s.bridgeWrite (.key c d)).portMy = s.portMy ∧
      (s.bridgeWrite (.key c d)).portClick = s.portClick := by
  cases d <;> exact ⟨rfl, rfl, rfl⟩

/-- Settles O51: the bridge's arm for each port sets that port's field. -/
theorem bridgeWritesOnePort : Obligations.BridgeWritesOnePort := by
  intro s w ms hs
  refine ⟨_, step_of_schedule_bridge hs, State.bridgeWrite_schedule _ w, State.bridgeWrite_x _ w,
    State.bridgeWrite_pc _ w, State.bridgeWrite_halted _ w, State.bridgeWrite_mem _ w, State.bridgeWrite_build _ w,
    ?_, ?_, ?_, ?_⟩
  · rintro v rfl; exact ⟨rfl, rfl, rfl, rfl⟩
  · rintro v rfl; exact ⟨rfl, rfl, rfl, rfl⟩
  · rintro v rfl; exact ⟨rfl, rfl, rfl, rfl⟩
  · rintro c d rfl
    obtain ⟨hmx, hmy, hclick⟩ := State.bridgeWrite_key_mouse { s with schedule := ms } c d
    exact ⟨hmx, hmy, hclick, (State.keyHeld_bridgeWrite _ c d c).trans (if_pos rfl),
      fun k hk => (State.keyHeld_bridgeWrite _ c d k).trans (if_neg hk)⟩

/-- Only fifteen trits decode (30_encoding.md R60). -/
theorem length_of_decode {ts : List Trit} {i : Instr} (h : decode ts = .ok i) : ts.length = 15 := by
  by_contra hlen
  rw [decode, if_neg hlen] at h
  cases h

/-- The host's number stands for trits that decode to what it is read as. -/
theorem exists_hostTrits_of_decodeTableWord {nbits w : Nat} {i : Instr} (h : decodeTableWord nbits w = some i) :
    ∃ ts, hostTrits nbits w = some ts ∧ decode ts = .ok i := by
  unfold decodeTableWord at h
  split at h
  · cases h
  · next ts hts =>
    split at h
    · next j hj => exact ⟨ts, hts, hj.trans (congrArg _ (Option.some.inj h))⟩
    · cases h

/-- Every cell of a slot that memory holds is in memory. -/
theorem State.inMemory_of_slotInMemory {s : State} {a : Int} (h : s.slotInMemory a = true) {k : Nat} (hk : k < 15) :
    s.inMemory (a + (k : Int)) = true := by
  rw [State.slotInMemory, Bool.and_eq_true, State.inMemory_iff, State.inMemory_iff] at h
  exact (s.inMemory_iff _).2 (by omega)

/-- In a memory of at least a slot, `readyToFetch` puts `pc` at one: where it was, at BOOT_ADDR, or at 0. -/
theorem State.slotInMemory_readyToFetch {s : State} (hsize : 15 ≤ s.build.memSize) :
    s.slotInMemory s.readyToFetch.pc = true := by
  unfold State.readyToFetch
  dsimp only
  split
  · next hpc => exact hpc
  · split
    · next hboot => exact hboot
    · rw [State.slotInMemory, Bool.and_eq_true, State.inMemory_iff, State.inMemory_iff]
      omega

/-- The fifteen trits placed are what the next fetch reads. -/
theorem State.readTrits_placeAtPc {s : State} (hw : s.mem.wf) (hsize : 15 ≤ s.build.memSize) {ts : List Trit}
    (hlen : ts.length = 15) : (s.placeAtPc ts).readTrits (s.placeAtPc ts).pc 15 = ts := by
  have hplaced := State.readTrits_writeTrits s.readyToFetch hw s.readyToFetch.pc ts fun k hk =>
    State.inMemory_of_slotInMemory (State.slotInMemory_readyToFetch hsize) (hlen ▸ hk)
  rwa [State.placeAtPc, State.writeTrits_pc, ← hlen]

/-- Settles O55: the placed state runs with an empty schedule, and its fetch reads the trits that were placed. -/
theorem placedWordRunsNext : Obligations.PlacedWordRunsNext := by
  intro s nbits w i hw hsize hword
  obtain ⟨ts, hts, hdecode⟩ := exists_hostTrits_of_decodeTableWord hword
  have hplace : s.withFetchWord nbits w = s.placeAtPc ts := by rw [State.withFetchWord, hts]
  have hfetch : (s.placeAtPc ts).fetch = i := State.fetch_of_decode
    ((congrArg decode (State.readTrits_placeAtPc hw hsize (length_of_decode hdecode))).trans hdecode)
  have hschedule : (s.placeAtPc ts).schedule = [] := State.writeTrits_schedule ..
  have hrunning : (s.placeAtPc ts).halted = false := State.writeTrits_halted ..
  rw [hplace, step_of_running hschedule hrunning, hfetch]

end Sys2Proof.Machine
end

section
/-! PROOFS. The assembler (30_encoding.md R72 to R76): how a text is read, and what each line emits. -/

namespace Sys2Proof.Machine

/-! Comments and tokens -/

/-- What stands before the first place of the marker is kept, character by character. -/
theorem stripComment_before_marker {marker : List Char} (hm : marker ≠ []) (pre post : List Char)
    (hfirst : ∀ k : Nat, k < pre.length → ¬marker <+: (pre ++ marker ++ post).drop k) :
    stripComment marker (pre ++ marker ++ post) = pre := by
  induction pre with
  | nil => exact stripComment_of_marker hm post
  | cons c pre ih =>
    have hhere : ¬marker <+: c :: (pre ++ marker ++ post) := hfirst 0 (Nat.succ_pos _)
    have hlater (k : Nat) (hk : k < pre.length) : ¬marker <+: (pre ++ marker ++ post).drop k :=
      hfirst (k + 1) (Nat.succ_lt_succ hk)
    rw [List.cons_append, List.cons_append, stripComment_cons hhere, ih hlater]

/-- A text without the marker is kept whole. -/
theorem stripComment_without_marker {marker : List Char} (text : List Char)
    (hnone : ∀ k : Nat, k < text.length → ¬marker <+: text.drop k) : stripComment marker text = text := by
  induction text with
  | nil => rfl
  | cons c text ih =>
    have hlater (k : Nat) (hk : k < text.length) : ¬marker <+: text.drop k := hnone (k + 1) (Nat.succ_lt_succ hk)
    rw [stripComment_cons (hnone 0 (Nat.succ_pos _)), ih hlater]

/-- Words, each followed by whitespace that only the last may lack, are the tokens. -/
theorem tokensFrom_words (words : List (List Char × List Char))
    (hwords : ∀ w ∈ words, w.1 ≠ [] ∧ (∀ c ∈ w.1, c.isWhitespace = false) ∧ ∀ c ∈ w.2, c.isWhitespace = true)
    (hgaps : ∀ w ∈ words.dropLast, w.2 ≠ []) :
    tokensFrom [] (words.flatMap (fun w => w.1 ++ w.2)) = words.map (fun w => w.1) := by
  induction words with
  | nil => rfl
  | cons w words ih =>
    obtain ⟨hne, hword, hgap⟩ := hwords w List.mem_cons_self
    have hread : w.1.reverse ≠ [] := mt List.reverse_eq_nil_iff.1 hne
    rw [List.flatMap_cons, List.append_assoc, tokensFrom_word hword, List.append_nil, List.map_cons]
    by_cases hlast : w.2 = []
    · have hnil : words = [] := by
        cases words with
        | nil => rfl
        | cons w' words => exact absurd hlast (hgaps w List.mem_cons_self)
      rw [hnil, hlast]
      exact (tokensFrom_end hread).trans (by rw [List.reverse_reverse, List.map_nil])
    · have hrest : ∀ v ∈ words.dropLast, v.2 ≠ [] := by
        intro v hv
        cases words with
        | nil => cases hv
        | cons w' words => exact hgaps v (List.mem_cons_of_mem w hv)
      rw [tokensFrom_gap hread hlast hgap, List.reverse_reverse,
        ih (fun v hv => hwords v (List.mem_cons_of_mem w hv)) hrest]

/-! Decimal arguments -/

theorem argumentAt_of_none {tokens : List (List Char)} {k : Nat} (h : tokens[k]? = none) : argumentAt tokens k = 0 := by
  rw [argumentAt, h]

theorem argumentAt_of_some {tokens : List (List Char)} {k : Nat} {t : List Char} (h : tokens[k]? = some t) :
    argumentAt tokens k = (parseDecimal t).getD 0 := by
  rw [argumentAt, h]

theorem parseDecimal_minus (ds : List Char) :
    parseDecimal ('-' :: ds) = (parseDigits ds).map (fun n : Nat => -(n : Int)) := by
  unfold parseDecimal
  split
  · next ds' h =>
    obtain rfl : ds = ds' := (List.cons.inj h).2
    cases parseDigits ds <;> rfl
  · next h => exact absurd rfl (h ds)

/-- A text that does not start with `-` is read as its digits. -/
theorem parseDecimal_of_ne_minus {c : Char} (hc : c ≠ '-') (cs : List Char) :
    parseDecimal (c :: cs) = (parseDigits (c :: cs)).map (fun n : Nat => (n : Int)) := by
  unfold parseDecimal
  split
  · next h => exact absurd (List.cons.inj h).1 hc
  · cases parseDigits (c :: cs) <;> rfl

/-- Reading digits from the left weighs them as a positional numeral: one more digit at the end multiplies by ten. -/
theorem foldl_digitChar (ds : List Nat) (hds : ∀ d ∈ ds, d < 10) :
    (ds.map Nat.digitChar).foldl (fun n c => 10 * n + (c.toNat - '0'.toNat)) 0 = Nat.ofDigits 10 ds.reverse := by
  induction ds using List.reverseRecOn with
  | nil => rfl
  | append_singleton ds d ih =>
    obtain ⟨-, hvalue, -⟩ := digitChar_spec (hds d (by simp))
    rw [List.map_append, List.foldl_append, ih fun e he => hds e (by simp [he]), List.reverse_append,
      List.reverse_singleton, List.singleton_append, Nat.ofDigits_cons, List.map_singleton, List.foldl_cons, hvalue,
      List.foldl_nil, add_comm]

/-- A run of decimal digits is the number it writes. -/
theorem parseDigits_digitChar {ds : List Nat} (hne : ds ≠ []) (hds : ∀ d ∈ ds, d < 10) :
    parseDigits (ds.map Nat.digitChar) = some (Nat.ofDigits 10 ds.reverse) := by
  have hsome : ¬(ds.map Nat.digitChar).isEmpty = true := by simpa using hne
  have hall : (ds.map Nat.digitChar).all Char.isDigit = true := by
    rw [List.all_map, List.all_eq_true]
    exact fun d hd => (digitChar_spec (hds d hd)).1
  rw [parseDigits, if_neg hsome, if_pos hall, foldl_digitChar ds hds]

/-- The decimal of digits, with and without a sign. -/
theorem parseDecimal_digitChar {ds : List Nat} (hne : ds ≠ []) (hds : ∀ d ∈ ds, d < 10) :
    parseDecimal (ds.map Nat.digitChar) = some (Nat.ofDigits 10 ds.reverse : Int) ∧
      parseDecimal ('-' :: ds.map Nat.digitChar) = some (-(Nat.ofDigits 10 ds.reverse : Int)) := by
  have hcast : ((Nat.ofDigits 10 ds.reverse : Nat) : Int) = Nat.ofDigits 10 ds.reverse := Nat.coe_ofDigits Int 10 _
  have hdigits := parseDigits_digitChar hne hds
  constructor
  · obtain ⟨d, ds, rfl⟩ := List.exists_cons_of_ne_nil hne
    obtain ⟨-, -, hminus⟩ := digitChar_spec (hds d List.mem_cons_self)
    rw [List.map_cons] at hdigits ⊢
    rw [parseDecimal_of_ne_minus hminus, hdigits, Option.map_some, hcast]
  · rw [parseDecimal_minus, hdigits, Option.map_some, hcast]

/-- A text that has a character which is no digit, other than a `-` before it all, is no decimal. -/
theorem parseDecimal_of_not_digit {c : Char} (hc : c.isDigit = false) (t u : List Char) (h : t ≠ [] ∨ c ≠ '-') :
    parseDecimal (t ++ c :: u) = none := by
  have hnone (r : List Char) : parseDigits (r ++ c :: u) = none := parseDigits_of_not_digit (by simp) hc
  cases t with
  | nil =>
    have hminus : c ≠ '-' := h.resolve_left fun hne => hne rfl
    rw [List.nil_append, parseDecimal_of_ne_minus hminus, ← List.nil_append (c :: u), hnone, Option.map_none]
  | cons d t =>
    by_cases hminus : d = '-'
    · rw [hminus, List.cons_append, parseDecimal_minus, hnone, Option.map_none]
    · rw [List.cons_append, parseDecimal_of_ne_minus hminus, ← List.cons_append, hnone, Option.map_none]

/-- Settles O57: each clause is one of the readings above. -/
theorem assemblerReadsTokens : Obligations.AssemblerReadsTokens := by
  refine ⟨fun marker pre post hm => stripComment_before_marker hm pre post,
    fun marker text => stripComment_without_marker text, fun lead words hlead hwords hgaps => ?tokens,
    fun tokens k => argumentAt_of_none, fun tokens k ds hne hds => ?decimal, fun tokens k t u c hc => ?notDigit,
    fun tokens k h => argumentAt_of_some h⟩
  case tokens => rw [tokensFrom_blank hlead, tokensFrom_words words hwords hgaps]
  case decimal =>
    obtain ⟨hplain, hsigned⟩ := parseDecimal_digitChar hne hds
    exact ⟨fun h => by rw [argumentAt_of_some h, hplain, Option.getD_some],
      fun h => by rw [argumentAt_of_some h, hsigned, Option.getD_some]⟩
  case notDigit =>
    refine ⟨fun h ht => ?_, fun h hminus => ?_⟩
    · rw [argumentAt_of_some h, parseDecimal_of_not_digit hc t u (.inl ht), Option.getD_none]
    · rw [argumentAt_of_some h, ← List.nil_append (c :: u), parseDecimal_of_not_digit hc [] u (.inr hminus),
        Option.getD_none]

/-! Lines and texts -/

/-- A line with a first token emits the record of that token's row, if it has one (30_encoding.md R73, R76). -/
theorem assembleLine_of_tokens {b : Build} {line name : List Char} {args : List (List Char)}
    (h : tokensFrom [] (stripComment b.commentMarker line) = name :: args) :
    assembleLine b line = (mnemonicTable.lookup (name.map Char.toUpper)).map
      fun op => { opcode := op, arg1 := argumentAt args 0, arg2 := argumentAt args 1 } := by
  unfold assembleLine
  rw [h]
  cases hrow : mnemonicTable.lookup (name.map Char.toUpper) <;> simp only [hrow] <;> rfl

/-- A line without a token emits nothing. -/
theorem assembleLine_of_no_tokens {b : Build} {line : List Char}
    (h : tokensFrom [] (stripComment b.commentMarker line) = []) : assembleLine b line = none := by
  unfold assembleLine
  rw [h]

/-- The image of a text is its lines' records in order (30_encoding.md R73). -/
theorem assemble_append_cons (b : Build) (before after : List (List Char)) (line : List Char) :
    assemble b (before ++ line :: after) =
      assemble b before ++ ((assembleLine b line).toList ++ assemble b after) := by
  rw [assemble, List.filterMap_append, List.filterMap_cons]
  cases assembleLine b line <;> rfl

/-- Settles O53: the first token is looked up in the table of the sixteen mnemonics, whose keys and opcode numbers are
those written out. -/
theorem assemblerEmitsInstructions : Obligations.AssemblerEmitsInstructions := by
  intro b line
  refine ⟨fun name args h => ?_, assembleLine_of_no_tokens, fun before after => assemble_append_cons b before after line⟩
  rw [assembleLine_of_tokens h]
  constructor
  · have hrows : ∀ m ∈ ([("HALT", 0), ("ADD", 1), ("SUB", 2), ("MUL", 3), ("DIV", 4), ("NEG", 6), ("SET", 11),
        ("CPY", 12), ("JMP", 20), ("BRN", 21), ("BRP", 22), ("TRI", 23), ("CALL", 24), ("RECT", 30), ("POLL_MOUSE", 31),
        ("POLL_KEY", 32)] : List (String × Int)), mnemonicTable.lookup m.1.toList = some m.2 := by decide
    intro m hm hname
    rw [hname, hrows m hm, Option.map_some]
  · intro hother
    have hrow : mnemonicTable.lookup (name.map Char.toUpper) = none := by
      refine List.lookup_eq_none_iff.2 fun row hmem => bne_iff_ne.2 fun hname => ?_
      have hkey : row.1 ∈ (["HALT", "ADD", "SUB", "MUL", "DIV", "NEG", "SET", "CPY", "JMP", "BRN", "BRP", "TRI", "CALL",
          "RECT", "POLL_MOUSE", "POLL_KEY"] : List String).map String.toList :=
        List.mem_map_of_mem (f := fun row : List Char × Int => row.1) hmem
      obtain ⟨m, hm, hrow⟩ := List.mem_map.1 hkey
      exact hother m hm (hname.trans hrow.symm)
    rw [hrow, Option.map_none]

/-- Settles O54: a text of the spec, evaluated. -/
theorem scenarioAAssembles : Obligations.ScenarioAAssembles := by
  unfold Obligations.ScenarioAAssembles
  decide

end Sys2Proof.Machine
end
